-- ==== Sys2Proof/Word.lean ====
section
/-! DEFINITION. The widths of the engine's values (00_scope.md R9: every value is an unsigned bit vector of a stated width). -/

namespace Sys2Proof

/-- A `u8`: one byte of a message or of the block buffer. -/
abbrev Byte := BitVec 8

/-- A `u32`: a hash word, a buffer word, a schedule word (00_scope.md R5). -/
abbrev Word := BitVec 32

/-- A `u64`: the length counter (10_state.md R26). -/
abbrev Length := BitVec 64

/-- A `u256`: the digest field of a response (30_encoding.md R70). -/
abbrev DigestBits := BitVec 256

/-- A command word: the 11 wires `cmd[10:0]` (30_encoding.md R62). -/
abbrev CmdWord := BitVec 11

/-- The eight hash words `H[0..7]` (10_state.md R20). -/
abbrev HashWords := Vector Word 8

/-- The sixteen words `BUF[0..15]` of a block (10_state.md R23). -/
abbrev Block := Vector Word 16

/-- A byte address of the block buffer, `0..63` (20_memory.md R40). -/
abbrev BufAddr := Fin 64

end Sys2Proof
end

