-- ==== Sys2Proof/Syntax.lean ====
section
/-! DEFINITION. The five host commands of the opcode table (30_encoding.md R64). -/

namespace Sys2Proof

/-- One constructor for each row of spec/opcode_table.json. COMPRESS is internal and has no row (30_encoding.md R74). -/
inductive Instr where
  /-- RESET, 40_reset.md R80. -/
  | reset
  /-- APPENDZ, the append of zero bytes, 41_append.md R87. -/
  | appendz
  /-- APPENDB, the append of one byte, 41_append.md R86. -/
  | appendb (data : Byte)
  /-- FINALIZE, 42_finalize.md R95. -/
  | finalize
  /-- DIGEST, 43_digest.md R110. -/
  | digest
deriving DecidableEq, Repr

end Sys2Proof
end

