-- ==== Sys2Proof/WellFormed.lean ====
section
/-! DEFINITION. Which field values a command word can carry (30_encoding.md R62). -/

namespace Sys2Proof

/-- The three fields of format `CMD11`, as plain numbers: what an assembler of the script notation has before it
makes a word of them. -/
structure Fields where
  op   : Nat
  n    : Nat
  data : Nat
deriving DecidableEq, Repr

/-- Every field fits its width: `op` 2 bits, `n` 1 bit, `data` 8 bits (30_encoding.md R62). -/
def Fields.wf (f : Fields) : Bool :=
  decide (f.op < 4) && decide (f.n < 2) && decide (f.data < 256)

/-- The fields of a command's canonical word: every ignored bit 0 (30_encoding.md R64, R65). -/
def Instr.fields : Instr → Fields
  | .reset     => ⟨0, 0, 0⟩
  | .appendz   => ⟨1, 0, 0⟩
  | .appendb d => ⟨1, 1, d.toNat⟩
  | .finalize  => ⟨2, 0, 0⟩
  | .digest    => ⟨3, 0, 0⟩

/-- A command is well-formed when its fields fit. The one operand is a byte by its type, so every command is. -/
def Instr.wf (i : Instr) : Bool := i.fields.wf

end Sys2Proof
end

