-- ==== Sys2Proof/Decode.lean ====
section
/-! DEFINITION. The decoder of the 11-bit command word, and after it the encoder (30_encoding.md R62 to R66). -/

namespace Sys2Proof

/-- `op = cmd[10:9]` (30_encoding.md R63). -/
def opField (w : CmdWord) : BitVec 2 := w.extractLsb' 9 2

/-- `n = cmd[8]` (30_encoding.md R63). -/
def nField (w : CmdWord) : BitVec 1 := w.extractLsb' 8 1

/-- `data = cmd[7:0]`, with no extension, scaling or shifting (30_encoding.md R63). -/
def dataField (w : CmdWord) : Byte := w.extractLsb' 0 8

/-- The command a word stands for. Total: every word is one of the five (30_encoding.md R64, R66). The bits a
command ignores are not read (R65). -/
def decode (w : CmdWord) : Instr :=
  if opField w = 0#2 then .reset
  else if opField w = 1#2 then (if nField w = 0#1 then .appendz else .appendb (dataField w))
  else if opField w = 2#2 then .finalize
  else .digest

/-- Why a number is not read as a command. -/
inductive DecodeError where
  /-- The number does not fit the 11 wires of `cmd` (30_encoding.md R62: one command length). Safe: the port
  cannot carry it. -/
  | notElevenBits
deriving DecidableEq, Repr

/-- The decoder on any number. -/
def decodeNumber (w : Nat) : Except DecodeError Instr :=
  if w < 2 ^ 11 then .ok (decode (BitVec.ofNat 11 w)) else .error .notElevenBits

/-- What the decoder reads from an instruction of the opcode table whose bits are `w`. A command is one word of 11
bits, so bit 0 of the table is `cmd[0]`; the number of bits the host counts a row in is not needed. -/
def decodeTableWord (_nbits w : Nat) : Option Instr :=
  match decodeNumber w with
  | .ok i    => some i
  | .error _ => none

/-- `cmd = op ‖ n ‖ data` (30_encoding.md R62). -/
def cmdWord (op : BitVec 2) (n : BitVec 1) (data : Byte) : CmdWord := op ++ n ++ data

/-- The canonical word of a command, every ignored bit 0 (30_encoding.md R64). -/
def encode : Instr → CmdWord
  | .reset     => cmdWord 0b00#2 0#1 0#8
  | .appendz   => cmdWord 0b01#2 0#1 0#8
  | .appendb d => cmdWord 0b01#2 1#1 d
  | .finalize  => cmdWord 0b10#2 0#1 0#8
  | .digest    => cmdWord 0b11#2 0#1 0#8

/-- An assembler's fields made into a word; none where a field does not fit. -/
def assemble (f : Fields) : Option CmdWord :=
  if f.wf then some (cmdWord (BitVec.ofNat 2 f.op) (BitVec.ofNat 1 f.n) (BitVec.ofNat 8 f.data)) else none

/-- The bits of its word a command depends on: `op` always, `n` for the two appends, `data` for APPENDB
(30_encoding.md R62, R65). -/
def usedBits : Instr → CmdWord
  | .reset     => 0x600#11
  | .appendz   => 0x700#11
  | .appendb _ => 0x7FF#11
  | .finalize  => 0x600#11
  | .digest    => 0x600#11

/-- One row of the opcode map of 30_encoding.md R64: a word `w` selects the row when `w & mask = match`. -/
structure OpcodeRow where
  mnemonic : String
  mask     : CmdWord
  pattern  : CmdWord
deriving DecidableEq, Repr

/-- The opcode map of 30_encoding.md R64, row by row. -/
def opcodeTable : List OpcodeRow :=
  [⟨"RESET",    0x600#11, 0x000#11⟩,
   ⟨"APPENDZ",  0x700#11, 0x200#11⟩,
   ⟨"APPENDB",  0x700#11, 0x300#11⟩,
   ⟨"FINALIZE", 0x600#11, 0x400#11⟩,
   ⟨"DIGEST",   0x600#11, 0x600#11⟩]

/-- Does the word select the row? -/
def OpcodeRow.selects (r : OpcodeRow) (w : CmdWord) : Bool := decide (w &&& r.mask = r.pattern)

/-- A command's row name. -/
def Instr.mnemonic : Instr → String
  | .reset     => "RESET"
  | .appendz   => "APPENDZ"
  | .appendb _ => "APPENDB"
  | .finalize  => "FINALIZE"
  | .digest    => "DIGEST"

end Sys2Proof
end

