-- ==== Sys2Proof/Machine/Compress.lean ====
section
/-! DEFINITION. The compression function COMPRESS and its parts (44_compression.md R115 to R127), in the clear form and
in the two other forms the spec permits (R125, R126). -/

namespace Sys2Proof.Machine

/-- `shr(x, n)`: logical right shift, zeros enter at the top (00_scope.md R10). -/
def shr (x : Word) (n : Nat) : Word := x >>> n

/-- `rotr(x, n) = x[n-1:0] ‖ x[31:n]`, for `0 < n < 32` (00_scope.md R10). -/
def rotr (x : Word) (n : Nat) : Word := (x >>> n) ||| (x <<< (32 - n))

/-- σ0 (44_compression.md R116). -/
def ssig0 (x : Word) : Word := rotr x 7 ^^^ rotr x 18 ^^^ shr x 3

/-- σ1 (44_compression.md R117). -/
def ssig1 (x : Word) : Word := rotr x 17 ^^^ rotr x 19 ^^^ shr x 10

/-- Σ0 (44_compression.md R118). -/
def bsig0 (x : Word) : Word := rotr x 2 ^^^ rotr x 13 ^^^ rotr x 22

/-- Σ1 (44_compression.md R119). -/
def bsig1 (x : Word) : Word := rotr x 6 ^^^ rotr x 11 ^^^ rotr x 25

/-- The choice function (44_compression.md R120). -/
def Ch (x y z : Word) : Word := (x &&& y) ^^^ (~~~x &&& z)

/-- The majority function (44_compression.md R121). -/
def Maj (x y z : Word) : Word := (x &&& y) ^^^ (x &&& z) ^^^ (y &&& z)

/-! ## Message schedule (44_compression.md R124) -/

/-- The next schedule word, from the earlier ones listed newest first: `W[t-2]`, `W[t-7]`, `W[t-15]`, `W[t-16]` stand
at places 1, 6, 14, 15. -/
def nextScheduleWord (ws : List Word) : Word :=
  ssig1 (ws.getD 1 0#32) + ws.getD 6 0#32 + ssig0 (ws.getD 14 0#32) + ws.getD 15 0#32

/-- `n` more schedule words, newest first. -/
def extendSchedule : Nat → List Word → List Word
  | 0,     ws => ws
  | n + 1, ws => extendSchedule n (nextScheduleWord ws :: ws)

/-- The schedule `W[0..63]` of a block, oldest first. -/
def schedule (m : Block) : List Word := (extendSchedule 48 m.toList.reverse).reverse

/-- `W[t]` of a block, for `t` below 64. -/
def W (m : Block) (t : Nat) : Word := (schedule m).getD t 0#32

/-! ## The round (44_compression.md R123) -/

/-- The eight working variables (10_state.md R34: transient, no state of the engine). -/
structure WorkVars where
  a  : Word
  b  : Word
  c  : Word
  d  : Word
  e  : Word
  f  : Word
  g  : Word
  hh : Word
deriving DecidableEq, Repr

/-- The working variables loaded from the hash words (44_compression.md R115). -/
def WorkVars.ofHash (h : HashWords) : WorkVars :=
  { a := h[0], b := h[1], c := h[2], d := h[3], e := h[4], f := h[5], g := h[6], hh := h[7] }

/-- `T1` of a round, with the round's constant and schedule word (44_compression.md R123). -/
def temp1 (v : WorkVars) (k w : Word) : Word := v.hh + bsig1 v.e + Ch v.e v.f v.g + k + w

/-- `T2` of a round (44_compression.md R123). -/
def temp2 (v : WorkVars) : Word := bsig0 v.a + Maj v.a v.b v.c

/-- One round; every right-hand side uses the values from before it (44_compression.md R123). -/
def roundStep (v : WorkVars) (k w : Word) : WorkVars :=
  { a := temp1 v k w + temp2 v, b := v.a, c := v.b, d := v.c,
    e := v.d + temp1 v k w, f := v.e, g := v.f, hh := v.g }

/-- The 64 rounds in order (44_compression.md R123). -/
def rounds (m : Block) (v : WorkVars) : WorkVars :=
  (roundConstants.zip (schedule m)).foldl (fun v kw => roundStep v kw.1 kw.2) v

/-- The working variables before round `t`, round by round (44_compression.md R123). -/
def workBefore (h : HashWords) (m : Block) : Nat → WorkVars
  | 0     => WorkVars.ofHash h
  | t + 1 => roundStep (workBefore h m t) (K t) (W m t)

/-- The feed-forward (44_compression.md R127). -/
def feedForward (h : HashWords) (v : WorkVars) : HashWords :=
  #v[h[0] + v.a, h[1] + v.b, h[2] + v.c, h[3] + v.d, h[4] + v.e, h[5] + v.f, h[6] + v.g, h[7] + v.hh]

/-- `COMPRESS(h, m)` (44_compression.md R115). -/
def compress (h : HashWords) (m : Block) : HashWords := feedForward h (rounds m (WorkVars.ofHash h))

/-! ## The rolling window (44_compression.md R125) -/

/-- An index of the window, `t mod 16`. -/
def windowIndex (t : Nat) : Fin 16 := ⟨t % 16, Nat.mod_lt _ (by decide)⟩

/-- The window before round `t`: for `t >= 16` the word at `t mod 16` is replaced by the next schedule word. Of the
other places, `t + 14`, `t + 9` and `t + 1` are `t - 2`, `t - 7` and `t - 15` modulo 16. -/
def slideWindow (t : Nat) (x : Block) : Block :=
  if t < 16 then x
  else x.set (windowIndex t)
    (ssig1 x[windowIndex (t + 14)] + x[windowIndex (t + 9)] + ssig0 x[windowIndex (t + 1)] + x[windowIndex t])

/-- The window as round `t` uses it, after its own replacement (44_compression.md R125). -/
def windowAt (m : Block) : Nat → Block
  | 0     => slideWindow 0 m
  | t + 1 => slideWindow (t + 1) (windowAt m t)

/-- `n` rounds from round `t` on, over the window. -/
def windowRounds : Nat → Nat → Block → WorkVars → WorkVars
  | 0,     _, _, v => v
  | n + 1, t, x, v =>
    windowRounds n (t + 1) (slideWindow t x) (roundStep v (K t) (slideWindow t x)[windowIndex t])

/-- COMPRESS with a 16-word rolling window, a private copy of the block (44_compression.md R125). -/
def compressWindow (h : HashWords) (m : Block) : HashWords :=
  feedForward h (windowRounds 64 0 m (WorkVars.ofHash h))

/-! ## The rotated registers (44_compression.md R126) -/

/-- The register that plays a role (0 for `a` up to 7 for `hh`) in round `t`: number `(role - t) mod 8`; `7 * t` is
`-t` modulo 8. -/
def roleRegister (role t : Nat) : Fin 8 := ⟨(role + 7 * t) % 8, Nat.mod_lt _ (by decide)⟩

/-- The working variables the eight registers stand for in round `t`. -/
def rolesAt (t : Nat) (v : HashWords) : WorkVars :=
  { a := v[roleRegister 0 t], b := v[roleRegister 1 t], c := v[roleRegister 2 t], d := v[roleRegister 3 t],
    e := v[roleRegister 4 t], f := v[roleRegister 5 t], g := v[roleRegister 6 t], hh := v[roleRegister 7 t] }

/-- Round `t` on the registers: only those in the roles `d` and `hh` change (44_compression.md R126). -/
def rotatedRound (t : Nat) (k w : Word) (v : HashWords) : HashWords :=
  let r := rolesAt t v
  (v.set (roleRegister 3 t) (r.d + temp1 r k w)).set (roleRegister 7 t) (temp1 r k w + temp2 r)

/-- `n` rounds from round `t` on, over the registers. -/
def rotatedRounds (m : Block) : Nat → Nat → HashWords → HashWords
  | 0,     _, v => v
  | n + 1, t, v => rotatedRounds m n (t + 1) (rotatedRound t (K t) (W m t) v)

/-- COMPRESS with registers whose roles move instead of their contents (44_compression.md R126). -/
def compressRotated (h : HashWords) (m : Block) : HashWords :=
  let v := rotatedRounds m 64 0 h
  #v[h[0] + v[0], h[1] + v[1], h[2] + v[2], h[3] + v[3], h[4] + v[4], h[5] + v[5], h[6] + v[6], h[7] + v[7]]

end Sys2Proof.Machine
end

