-- ==== Sys2Proof/Config.lean ====
section
/-! DEFINITION. What the spec fixes as a parameter, what it leaves open and the model names, and the free values. -/

namespace Sys2Proof

/-- `MAXLEN`, the largest supported message length in bytes (10_state.md R27; 90_conflicts.md C2). -/
def Config.maxLen : Nat := 2 ^ 61 - 1

/-- `BUF_RESET`, what the block buffer holds at reset. DESIGN CHOICE (log entry 1), unsafe: the spec says
"any value" (10_state.md R35). Statements about reset are made for every buffer (`State.resetWith`). -/
def Config.bufReset : Block := Vector.replicate 16 0#32

/-- The unspecified values of `rsp_digest` (30_encoding.md R70; 93_implementation_defined.md U4), one for each draw.
A free value: nothing is known of it (log entry 2). -/
opaque Config.freeDigest : Nat → DigestBits

end Sys2Proof
end

