-- ==== Sys2Proof/Machine/State.lean ====
section
/-! DEFINITION. The state of one engine and of its ports, the ways a step can stop, and the state after reset. -/

namespace Sys2Proof.Machine

/-- The lifecycle state (10_state.md R28). -/
inductive Phase where
  | accepting
  | finalized
deriving DecidableEq, Repr

/-- The status of a response (30_encoding.md R68). -/
inductive Status where
  /-- `rsp_status = 0`: the command took effect. -/
  | ok
  /-- `rsp_status = 1`: the command's state precondition was violated and it changed nothing. -/
  | invalidState
deriving DecidableEq, Repr

/-- One response: `rsp_status` and `rsp_digest` (30_encoding.md R68, R70). -/
structure Response where
  status : Status
  digest : DigestBits
deriving DecidableEq, Repr

/-- What the host does at the ports, one item for each transaction (30_encoding.md R61; 70_reset_and_hazards.md R179).
The list of these is an input of the machine (log entry 4). -/
inductive HostInput where
  /-- A command word is accepted and answered. -/
  | command (w : CmdWord)
  /-- `rst = 1` at a clock edge, no command in progress (70_reset_and_hazards.md R165). -/
  | rst
  /-- A command word is accepted and `rst` rises before its answer: the command is abandoned
  (70_reset_and_hazards.md R166). -/
  | abandoned (w : CmdWord)
  /-- A cycle with `cmd_valid = 0` (30_encoding.md R61). -/
  | idle
deriving DecidableEq, Repr

/-- What the record of a run holds, one entry for each event at the ports (70_reset_and_hazards.md R178; log entry 5). -/
inductive PortEvent where
  /-- A command and its response. -/
  | answered (i : Instr) (r : Response)
  /-- A hardware reset, which has no response. -/
  | hardwareReset
deriving DecidableEq, Repr

/-- The spec's own state: exactly `(H, BUF, LEN, PHASE)` (10_state.md R30). -/
structure Engine where
  /-- `H[0..7]`, the running hash value (10_state.md R20). -/
  h     : HashWords
  /-- `BUF[0..15]`, the block being assembled (10_state.md R23). -/
  buf   : Block
  /-- `LEN`, the bytes appended since the last reset (10_state.md R26). -/
  len   : Length
  /-- `PHASE`, the lifecycle state (10_state.md R28). -/
  phase : Phase
deriving DecidableEq, Repr

/-- The engine, its ports, and the model's own record and draw counter. -/
structure State where
  engine  : Engine
  /-- The host's inputs not yet taken, the next one first (log entry 4). -/
  inputs  : List HostInput
  /-- The response port: what the latest transaction presents (30_encoding.md R68). -/
  rsp     : Option Response
  /-- What the ports have shown so far, oldest first (log entry 5). -/
  history : List PortEvent
  /-- How many unspecified digest values have been drawn (log entry 2). -/
  draws   : Nat
deriving DecidableEq, Repr

/-- The engine never stops with a fault: its one error is a response, and every command has a step in every
supported state (60_exceptions.md R146, R150). So there is no constructor. -/
inductive Fault where
deriving DecidableEq, Repr

/-- Why a step gives no next state. -/
inductive Refusal where
  /-- Raised by an arm of `exec` whose instruction has no meaning yet. Safe. No arm raises it. -/
  | notModelled (mnemonic : String)
  /-- Raised by APPENDB in ACCEPTING with `LEN >= MAXLEN`: "a model refuses it" (60_exceptions.md R144, R150;
  93_implementation_defined.md U1; log entry 3). Safe: nothing is proved of such a run. -/
  | overLength
deriving DecidableEq, Repr

/-- The engine right after a hardware reset, the buffer holding `buf` (10_state.md R35). -/
def Engine.resetWith (buf : Block) : Engine :=
  { h := iv, buf := buf, len := 0#64, phase := .accepting }

/-- The machine right after a hardware reset, the buffer holding `buf`: no response pending (10_state.md R35), no
input and no record yet. -/
def State.resetWith (buf : Block) : State :=
  { engine := Engine.resetWith buf, inputs := [], rsp := none, history := [], draws := 0 }

/-- The machine right after reset, `BUF` at the value the model names (log entry 1). -/
def State.reset : State := State.resetWith Config.bufReset

end Sys2Proof.Machine
end

