-- ==== Sys2Proof/Machine/Flags.lean ====
section
/-! DEFINITION. The engine has no flag register (10_state.md R32). What gates a command is `PHASE`, and what a command
reports is the status of its response; both are computed here. -/

namespace Sys2Proof.Machine

/-- `PHASE` as the bit that holds it (10_state.md R28). -/
def Phase.bit : Phase → BitVec 1
  | .accepting => 0#1
  | .finalized => 1#1

/-- `rsp_status` as the wire that carries it (30_encoding.md R68). -/
def Status.bit : Status → BitVec 1
  | .ok           => 0#1
  | .invalidState => 1#1

/-- The phase a command requires; none where every phase will do (60_exceptions.md R140). -/
def requiredPhase : Instr → Option Phase
  | .reset     => none
  | .appendz   => some .accepting
  | .appendb _ => some .accepting
  | .finalize  => some .accepting
  | .digest    => some .finalized

/-- Does the command violate its state precondition in this phase (60_exceptions.md R140)? A function of the
operation and `PHASE` alone. -/
def violates (i : Instr) (p : Phase) : Bool :=
  match requiredPhase i with
  | none   => false
  | some q => decide (p ≠ q)

end Sys2Proof.Machine
end

