-- ==== Sys2Proof/Machine/Operands.lean ====
section
/-! DEFINITION. Operand assembly: the addresses, lanes and masks a command computes from `LEN` (30_encoding.md R76),
and the packing of bytes and words (20_memory.md R43). -/

namespace Sys2Proof.Machine

/-- The fill position `LEN mod 64` (10_state.md R29): the buffer address of the next byte. -/
def fillPosition (len : Length) : BufAddr := ⟨len.toNat % 64, Nat.mod_lt _ (by decide)⟩

/-- The word of the buffer a byte address lies in, `k div 4` (20_memory.md R41). -/
def wordIndex (k : BufAddr) : Fin 16 := ⟨k.val / 4, by omega⟩

/-- The bit position of a byte address within its word, `24 - 8*(k mod 4)` (20_memory.md R42). -/
def laneShift (k : BufAddr) : Nat := 24 - 8 * (k.val % 4)

/-- Four bytes as one word, the first in the most significant position (20_memory.md R41, R43). -/
def packWord (b0 b1 b2 b3 : Byte) : Word := b0 ++ b1 ++ b2 ++ b3

/-- `KEEP(r)` of 42_finalize.md R95: a word's top `8r` bits, for `r` below 4. -/
def keepMask : Nat → Word
  | 0 => 0x00000000#32
  | 1 => 0xFF000000#32
  | 2 => 0xFFFF0000#32
  | _ => 0xFFFFFF00#32

/-- The padding marker in lane `r`: `shl(0x00000080, 24 - 8*r)` (42_finalize.md R95, R96). -/
def padMarker (r : Nat) : Word := 0x00000080#32 <<< (24 - 8 * r)

/-- `bitlen = LEN * 8` within 64 bits (42_finalize.md R99). -/
def bitLength (len : Length) : BitVec 64 := len <<< 3

/-- `bitlen[63:32]`, the word 14 of the last block (42_finalize.md R99). -/
def lengthHigh (len : Length) : Word := (bitLength len).extractLsb' 32 32

/-- `bitlen[31:0]`, the word 15 of the last block (42_finalize.md R99). -/
def lengthLow (len : Length) : Word := (bitLength len).extractLsb' 0 32

/-- The digest bus: `H[0] ‖ ... ‖ H[7]`, `H[0]` most significant (43_digest.md R110). -/
def digestBits (h : HashWords) : DigestBits :=
  h[0] ++ h[1] ++ h[2] ++ h[3] ++ h[4] ++ h[5] ++ h[6] ++ h[7]

/-- Digest byte `q` of a digest bus, `rsp_digest[255 - 8q : 248 - 8q]` (43_digest.md R111). -/
def digestByte (d : DigestBits) (q : Fin 32) : Byte := d.extractLsb' (248 - 8 * q.val) 8

end Sys2Proof.Machine
end

