-- ==== Sys2Proof/Machine/Ops.lean ====
section
/-! DEFINITION. The named operations the commands are made of: the buffer's access primitives, responding, raising
InvalidState, hardware reset, and taking the host's next input. -/

namespace Sys2Proof.Machine

/-! ## The block buffer (20_memory.md R41, R42) -/

/-- `MemRead(k, 1)` (20_memory.md R41). -/
def memRead8 (b : Block) (k : BufAddr) : Byte := b[wordIndex k].extractLsb' (laneShift k) 8

/-- `MemRead(4i, 4)` (20_memory.md R41). -/
def memRead32 (b : Block) (i : Fin 16) : Word := b[i]

/-- `MemWrite(k, 1, v)`: one byte lane changes (20_memory.md R42). -/
def memWrite8 (b : Block) (k : BufAddr) (v : Byte) : Block :=
  b.set (wordIndex k)
    ((b[wordIndex k] &&& ~~~(0x000000FF#32 <<< laneShift k)) ||| (v.setWidth 32 <<< laneShift k))

/-- `MemWrite(4i, 4, v)` (20_memory.md R42). -/
def memWrite32 (b : Block) (i : Fin 16) (v : Word) : Block := b.set i v

/-- `for i in lo..hi-1: BUF[i] <- 0` (42_finalize.md R95). -/
def zeroWords (b : Block) (lo hi : Nat) : Block :=
  Vector.ofFn fun i : Fin 16 => if lo ≤ i.val ∧ i.val < hi then 0#32 else b[i]

/-! ## Responses and the one error -/

/-- The command ends with a response whose digest field is unspecified: a free value, a fresh one each time
(00_scope.md R11; 30_encoding.md R68, R70). -/
def respond (i : Instr) (st : Status) (s : State) : State :=
  { s with
    rsp     := some ⟨st, Config.freeDigest s.draws⟩
    history := s.history ++ [.answered i ⟨st, Config.freeDigest s.draws⟩]
    draws   := s.draws + 1 }

/-- `respond(OK, d)`: the response of a successful DIGEST (00_scope.md R11; 43_digest.md R110). -/
def respondDigest (i : Instr) (d : DigestBits) (s : State) : State :=
  { s with rsp := some ⟨.ok, d⟩, history := s.history ++ [.answered i ⟨.ok, d⟩] }

/-- `raise InvalidState`: the whole of the engine's exception entry. The response has status 1, no state of the engine
is written, and control goes nowhere (60_exceptions.md R141, R142, R146). There is no return from it (R148). -/
def raiseInvalidState (i : Instr) (s : State) : Host.Outcome State Fault Refusal :=
  .next (respond i .invalidState s)

/-- The check every command makes before anything else (60_exceptions.md R140, R141). -/
def checkPhase (i : Instr) (s : State) (effect : Host.Outcome State Fault Refusal) :
    Host.Outcome State Fault Refusal :=
  if violates i s.engine.phase then raiseInvalidState i s else effect

/-- The command's effect on the engine, answered OK. -/
def complete (i : Instr) (e : Engine) (s : State) : Host.Outcome State Fault Refusal :=
  .next (respond i .ok { s with engine := e })

/-! ## The engine's own updates -/

/-- `H <- IV`, `LEN <- 0`, `PHASE <- ACCEPTING`; `BUF` keeps its value (40_reset.md R80; 70_reset_and_hazards.md R165). -/
def Engine.fresh (e : Engine) : Engine := { e with h := iv, len := 0#64, phase := .accepting }

/-- `H <- COMPRESS(H, BUF)`; `BUF` is read and not written (10_state.md R25). -/
def Engine.compressBlock (e : Engine) : Engine := { e with h := compress e.h e.buf }

/-! ## The host's inputs -/

/-- A hardware reset: the engine is fresh, no response is presented (70_reset_and_hazards.md R165, R166). -/
def hardwareReset (s : State) : State :=
  { s with engine := s.engine.fresh, rsp := none, history := s.history ++ [.hardwareReset] }

/-- A cycle in which nothing is offered: no state of the engine changes and no response is presented
(30_encoding.md R61). -/
def idleCycle (s : State) : State := { s with rsp := none }

/-- The host's next input. Where it offers nothing more, the engine idles: it never halts
(70_reset_and_hazards.md R178). -/
def nextInput (s : State) : HostInput :=
  match s.inputs with
  | []     => .idle
  | x :: _ => x

/-- The state with that input taken. -/
def takeInput (s : State) : State := { s with inputs := s.inputs.tail }

/-- The state with these inputs before those it has. -/
def State.offerInputs (s : State) (xs : List HostInput) : State := { s with inputs := xs ++ s.inputs }

/-- The state with the canonical words of these commands offered first. -/
def State.offer (s : State) (is : List Instr) : State :=
  s.offerInputs (is.map fun i => .command (encode i))

end Sys2Proof.Machine
end

