-- ==== Sys2Proof/Machine/Append.lean ====
section
/-! DEFINITION. The APPEND commands (41_append.md). -/

namespace Sys2Proof.Machine

/-- The byte put at the fill position and counted (41_append.md R86). -/
def Engine.storeByte (e : Engine) (data : Byte) : Engine :=
  { e with buf := memWrite8 e.buf (fillPosition e.len) data, len := e.len + 1#64 }

/-- The effect of one appended byte: stored, counted, and the block compressed when the byte's address was 63
(41_append.md R86; 44_compression.md R130). -/
def Engine.appendByte (e : Engine) (data : Byte) : Engine :=
  if fillPosition e.len = 63 then (e.storeByte data).compressBlock else e.storeByte data

/-- APPENDB (41_append.md R86). The phase is checked first; a message at its largest length gets no meaning
(60_exceptions.md R144; log entry 3). -/
def execAppendb (data : Byte) (s : State) : Host.Outcome State Fault Refusal :=
  checkPhase (.appendb data) s
    (if s.engine.len.toNat < Config.maxLen then complete (.appendb data) (s.engine.appendByte data) s
     else .refused .overLength)

/-- APPENDZ (41_append.md R87): no state is written. -/
def execAppendz (s : State) : Host.Outcome State Fault Refusal :=
  checkPhase .appendz s (complete .appendz s.engine s)

end Sys2Proof.Machine
end

