-- ==== Sys2Proof/Machine/Digest.lean ====
section
/-! DEFINITION. The DIGEST command (43_digest.md). -/

namespace Sys2Proof.Machine

/-- DIGEST (43_digest.md R110): the 256 digest bits, no state written. -/
def execDigest (s : State) : Host.Outcome State Fault Refusal :=
  checkPhase .digest s (.next (respondDigest .digest (digestBits s.engine.h) s))

end Sys2Proof.Machine
end

