-- ==== Sys2Proof/Machine/Finalize.lean ====
section
/-! DEFINITION. The FINALIZE command: the padding and finalization controller (42_finalize.md). -/

namespace Sys2Proof.Machine

/-- Steps 1 and 2: the marker after the last data byte, zeros after it (42_finalize.md R95, R96). -/
def placeMarker (b : Block) (t : BufAddr) : Block :=
  zeroWords (memWrite32 b (wordIndex t) ((b[wordIndex t] &&& keepMask (t.val % 4)) ||| padMarker (t.val % 4)))
    ((wordIndex t).val + 1) 16

/-- Step 3: with no room for the length field the block is compressed now and its words cleared, up to the one
that held the marker (42_finalize.md R97). -/
def Engine.extraBlock (e : Engine) (t : BufAddr) : Engine :=
  if t.val ≥ 56 then
    { e.compressBlock with buf := zeroWords e.buf 0 ((wordIndex t).val + 1) }
  else e

/-- Step 4: the bit length into words 14 and 15 (42_finalize.md R99). -/
def writeLength (b : Block) (len : Length) : Block :=
  memWrite32 (memWrite32 b 14 (lengthHigh len)) 15 (lengthLow len)

/-- The buffer with the marker placed at the fill position (42_finalize.md R96). -/
def Engine.mark (e : Engine) : Engine := { e with buf := placeMarker e.buf (fillPosition e.len) }

/-- The length field written (42_finalize.md R99). -/
def Engine.putLength (e : Engine) : Engine := { e with buf := writeLength e.buf e.len }

/-- Steps 1 to 6 (42_finalize.md R95 to R101). `LEN` is not written; `H` keeps the numbers, the byte order being
applied where the digest leaves (R101). -/
def Engine.finalize (e : Engine) : Engine :=
  { (e.mark.extraBlock (fillPosition e.len)).putLength.compressBlock with phase := .finalized }

/-- FINALIZE (42_finalize.md R95). -/
def execFinalize (s : State) : Host.Outcome State Fault Refusal :=
  checkPhase .finalize s (complete .finalize s.engine.finalize s)

end Sys2Proof.Machine
end

