-- ==== Sys2Proof/Machine/Reset.lean ====
section
/-! DEFINITION. The RESET command (40_reset.md). -/

namespace Sys2Proof.Machine

/-- RESET (40_reset.md R80): valid in every phase. -/
def execReset (s : State) : Host.Outcome State Fault Refusal :=
  complete .reset s.engine.fresh s

end Sys2Proof.Machine
end

