-- ==== Sys2Proof/Machine/Dispatch.lean ====
section
/-! DEFINITION. One arm for each command. -/

namespace Sys2Proof.Machine

def exec (i : Instr) (s : State) : Host.Outcome State Fault Refusal :=
  match i with
  | .reset => Sys2Proof.Machine.execReset s
  | .appendz => Sys2Proof.Machine.execAppendz s
  | .appendb data => Sys2Proof.Machine.execAppendb data s
  | .finalize => Sys2Proof.Machine.execFinalize s
  | .digest => Sys2Proof.Machine.execDigest s

end Sys2Proof.Machine
end

