-- ==== Sys2Proof/Machine/Port.lean ====
section
/-! DEFINITION. What one host input does to the machine, and the port signals that go with it. -/

namespace Sys2Proof.Machine

/-- One transaction: a command is decoded and executed; `rst` resets, and a command it overtakes is abandoned with no
response and no effect of its own (70_reset_and_hazards.md R166); an idle cycle changes nothing. -/
def serve (x : HostInput) (s : State) : Host.Outcome State Fault Refusal :=
  match x with
  | .command w   => exec (decode w) s
  | .rst         => .next (hardwareReset s)
  | .abandoned _ => .next (hardwareReset s)
  | .idle        => .next (idleCycle s)

/-- The engine's one-bit output signals over a transaction (30_encoding.md R60). -/
structure PortSignals where
  /-- `cmd_ready` at the transaction's first edge. -/
  cmdReady : Bool
  /-- `rsp_valid` at its end. -/
  rspValid : Bool
deriving DecidableEq, Repr

/-- `cmd_ready` while the host does this: 1 when the engine is between commands, 0 while `rst = 1`
(30_encoding.md R61; 70_reset_and_hazards.md R166). An abandoned command was accepted, so the port was ready for it. -/
def cmdReady : HostInput → Bool
  | .command _   => true
  | .rst         => false
  | .abandoned _ => true
  | .idle        => true

/-- The signals of a transaction that ended in this state. -/
def portSignals (x : HostInput) (after : State) : PortSignals :=
  { cmdReady := cmdReady x, rspValid := after.rsp.isSome }

/-- A command word offered as the next input. -/
def offerWord (w : CmdWord) (s : State) : State := s.offerInputs [.command w]

end Sys2Proof.Machine
end

