-- ==== Sys2Proof/Machine/Step.lean ====
section
/-! DEFINITION. One step: the host's next input is taken and served. -/

namespace Sys2Proof.Machine

/-- One transaction of the machine (00_scope.md R8; 20_memory.md R48). -/
def step (s : State) : Host.Outcome State Fault Refusal := serve (nextInput s) (takeInput s)

/-- The state with a command word placed where the step takes its next input from: the head of the host's inputs
(log entry 4). A command is one word of 11 bits, so the count of bits is not needed. -/
def State.withFetchWord (s : State) (_nbits w : Nat) : State := offerWord (BitVec.ofNat 11 w) s

end Sys2Proof.Machine
end

