-- ==== Sys2Proof/Machine/Message.lean ====
section
/-! DEFINITION. The message-level view that claims are stated in: byte sequences cut into blocks, the padding rule, the
SHA-256 digest of a message, and the message a record of a run stands for (00_scope.md R12). No command uses it. -/

namespace Sys2Proof.Machine

/-- Block `j` of a byte sequence, packed big-endian into sixteen words (41_append.md R88; 42_finalize.md R102). -/
def blockAt (bytes : List Byte) (j : Nat) : Block :=
  Vector.ofFn fun i : Fin 16 =>
    packWord (bytes.getD (64 * j + 4 * i.val) 0#8) (bytes.getD (64 * j + 4 * i.val + 1) 0#8)
      (bytes.getD (64 * j + 4 * i.val + 2) 0#8) (bytes.getD (64 * j + 4 * i.val + 3) 0#8)

/-- The complete 64-byte blocks of a byte sequence, in order. -/
def fullBlocks (bytes : List Byte) : List Block := (List.range (bytes.length / 64)).map (blockAt bytes)

/-- The bytes after the last complete block. -/
def leftover (bytes : List Byte) : List Byte := bytes.drop (64 * (bytes.length / 64))

/-- The complete blocks of a byte sequence compressed into a hash state, in block order (41_append.md R88). -/
def absorb (h : HashWords) (bytes : List Byte) : HashWords := (fullBlocks bytes).foldl compress h

/-- The 64 bytes of the buffer in address order (10_state.md R23). -/
def bufBytes (b : Block) : List Byte := (List.finRange 64).map (memRead8 b)

/-- The pending bytes `BUFB(0..f-1)`, `f` the fill position (10_state.md R24). -/
def pendingBytes (e : Engine) : List Byte := (bufBytes e.buf).take (fillPosition e.len).val

/-- `8 * L` as 8 bytes, most significant first (42_finalize.md R102). -/
def lengthBytes (length : Nat) : List Byte :=
  (List.range 8).map fun q => BitVec.ofNat 8 (8 * length / 256 ^ (7 - q))

/-- What the padding puts after a message of `L` bytes: `0x80`, `(55 - L) mod 64` zero bytes, the length field
(42_finalize.md R98, R102). -/
def padding (length : Nat) : List Byte :=
  0x80#8 :: (List.replicate ((119 - length % 64) % 64) 0#8 ++ lengthBytes length)

/-- The SHA-256 digest of a message, on the digest bus (42_finalize.md R102). -/
def sha256 (message : List Byte) : DigestBits :=
  digestBits (absorb iv (message ++ padding message.length))

/-- The message after one more event of the record: a reset of either kind empties it, an accepted APPENDB adds its
byte (10_state.md R24: "the message byte appended at position ... since the last reset"). -/
def messageAfter (message : List Byte) : PortEvent → List Byte
  | .answered .reset _               => []
  | .answered (.appendb d) ⟨.ok, _⟩  => message ++ [d]
  | .answered _ _                    => message
  | .hardwareReset                   => []

/-- The bytes appended since the last reset, from the record of the run. -/
def messageOf (history : List PortEvent) : List Byte := history.foldl messageAfter []

end Sys2Proof.Machine
end

