-- ==== Sys2Proof/Machine/Script.lean ====
section
/-! DEFINITION. The script notation and the pseudo-instruction `append` (30_encoding.md R71, R72). -/

namespace Sys2Proof.Machine

/-- `append b0 b1 ... b(n-1)`: one APPENDB for each byte, in order; one APPENDZ where there is no byte
(30_encoding.md R72). -/
def appendCommands (bytes : List Byte) : List Instr :=
  match bytes with
  | []     => [.appendz]
  | b :: r => (b :: r).map .appendb

/-- The ASCII codes of a text, with no terminating zero byte (30_encoding.md R72; 92_eei_decisions.md D24). DESIGN CHOICE
(log entry 13), unsafe: a character outside ASCII has no ASCII code and the spec gives it no byte (00_scope.md R12,
30_encoding.md R72); here it gives the low 8 bits of its code point. -/
def textBytes (text : List Char) : List Byte := text.map fun c => BitVec.ofNat 8 c.toNat

/-- One line of a script (30_encoding.md R71). -/
inductive ScriptLine where
  | reset
  | appendb (data : Byte)
  | appendz
  | finalize
  | digest
  | append (bytes : List Byte)
  | appendText (text : List Char)
deriving DecidableEq, Repr

/-- The commands a line stands for (30_encoding.md R71, R72). -/
def ScriptLine.commands : ScriptLine → List Instr
  | .reset        => [.reset]
  | .appendb d    => [.appendb d]
  | .appendz      => [.appendz]
  | .finalize     => [.finalize]
  | .digest       => [.digest]
  | .append bs    => appendCommands bs
  | .appendText t => appendCommands (textBytes t)

/-- The command words a line emits (30_encoding.md R71). -/
def ScriptLine.words (l : ScriptLine) : List CmdWord := l.commands.map encode

end Sys2Proof.Machine
end

