-- ==== Sys2Proof/Safety.lean ====
section
/-! DEFINITION. The terms claims are stated in: a supported engine, an engine that holds a message, states that differ
in stale bytes only, what a host may rely on in a record, and an error-free use. -/

namespace Sys2Proof.Machine

/-- Every supported state has `LEN <= MAXLEN` (10_state.md R27). -/
def Engine.Supported (e : Engine) : Prop := e.len.toNat ≤ Config.maxLen

/-- The engine has taken in exactly this message and is still accepting: its complete blocks are in `H`, the rest is
pending (10_state.md R24; 41_append.md R88). -/
structure Engine.Holds (e : Engine) (message : List Byte) : Prop where
  phase   : e.phase = .accepting
  length  : e.len.toNat = message.length
  fits    : message.length ≤ Config.maxLen
  hash    : e.h = absorb iv message
  pending : pendingBytes e = leftover message

/-- The engine has finalized exactly this message (42_finalize.md R102). -/
structure Engine.Finalized (e : Engine) (message : List Byte) : Prop where
  phase  : e.phase = .finalized
  length : e.len.toNat = message.length
  fits   : message.length ≤ Config.maxLen
  digest : digestBits e.h = sha256 message

/-- The engine agrees with a message, in whichever phase it is. -/
def Engine.AgreesWith (e : Engine) (message : List Byte) : Prop :=
  e.Holds message ∨ e.Finalized message

/-- The invariant of a run: the engine agrees with the bytes the record says were appended since the last reset. -/
def State.Consistent (s : State) : Prop := s.engine.AgreesWith (messageOf s.history)

/-- Two engines that differ at most in stale bytes: in ACCEPTING the buffer bytes at and above the fill position, in
FINALIZED all of them (10_state.md R24, R33). -/
def Engine.SameButStale (e e' : Engine) : Prop :=
  e.h = e'.h ∧ e.len = e'.len ∧ e.phase = e'.phase ∧
  (e.phase = .accepting → ∀ k : BufAddr, k < fillPosition e.len → memRead8 e.buf k = memRead8 e'.buf k)

/-- What a host may rely on in one event: the command, its status, and the digest field where it is specified, which
is in the response of a DIGEST with status OK (30_encoding.md R70; 70_reset_and_hazards.md R172). -/
inductive Observation where
  | answer (i : Instr) (st : Status) (digest : Option DigestBits)
  | hardwareReset
deriving DecidableEq, Repr

/-- The host's view of an event. -/
def observe : PortEvent → Observation
  | .answered .digest ⟨.ok, d⟩ => .answer .digest .ok (some d)
  | .answered i r              => .answer i r.status none
  | .hardwareReset             => .hardwareReset

/-- The host's view of a run so far: "its sequence of responses and nothing else" (70_reset_and_hazards.md R178). -/
def State.observations (s : State) : List Observation := s.history.map observe

/-- Two runs from `s` and `s'` ended alike for the host: the same observations were added to the two records and the
engines differ in stale bytes only; or both were refused for the same reason. -/
def SameOutcome (s s' : State) : Host.Outcome State Fault Refusal → Host.Outcome State Fault Refusal → Prop
  | .next t, .next t' =>
    t.engine.SameButStale t'.engine ∧
    ∃ es es' : List PortEvent, t.history = s.history ++ es ∧ t'.history = s'.history ++ es' ∧
      es.map observe = es'.map observe
  | .refused r, .refused r' => r = r'
  | _, _ => False

/-- The machine run for a number of steps. -/
abbrev run (n : Nat) (s : State) : Host.Outcome State Fault Refusal := Host.Core.run Sys2Proof.core n s

/-- Was the event answered OK, where it was a command? -/
def PortEvent.isOk : PortEvent → Bool
  | .answered _ r  => decide (r.status = .ok)
  | .hardwareReset => true

/-- The protocol of 70_reset_and_hazards.md R169 from a phase on: appends, then FINALIZE, then DIGESTs, RESET at any
point. -/
def followsProtocol : Phase → List Instr → Bool
  | _,          []                => true
  | _,          .reset :: is      => followsProtocol .accepting is
  | .accepting, .appendb _ :: is  => followsProtocol .accepting is
  | .accepting, .appendz :: is    => followsProtocol .accepting is
  | .accepting, .finalize :: is   => followsProtocol .finalized is
  | .accepting, .digest :: _      => false
  | .finalized, .appendb _ :: _   => false
  | .finalized, .appendz :: _     => false
  | .finalized, .finalize :: _    => false
  | .finalized, .digest :: is     => followsProtocol .finalized is

end Sys2Proof.Machine
end

