-- ==== Sys2Proof/Certificates/Slice0/Obligations.lean ====
section
/-! DEFINITION. The statements for the provers, rule by rule of spec/. Where a statement speaks of `inputs`, `history` or
`draws`, those are the model's own fields (log entries 2, 4 and 5); it then has basis 'derived'. No statement rests on
the value of a free digest (`Config.freeDigest`) nor on the value of `Config.bufReset` (log entry 1). -/

open Sys2Proof Sys2Proof.Machine

/-! ## Reset -/

/-- 10_state.md R35 with the values of R22: what hardware reset and the RESET command leave. -/
def Obligations.ResetValues : Prop :=
  (∀ b : Block,
    (State.resetWith b).engine.h =
      #v[0x6a09e667#32, 0xbb67ae85#32, 0x3c6ef372#32, 0xa54ff53a#32,
         0x510e527f#32, 0x9b05688c#32, 0x1f83d9ab#32, 0x5be0cd19#32] ∧
    (State.resetWith b).engine.len = 0#64 ∧
    (State.resetWith b).engine.phase = .accepting ∧
    (State.resetWith b).engine.buf = b ∧
    (State.resetWith b).rsp = none) ∧
  (∃ b : Block, State.reset = State.resetWith b) ∧
  (∀ s : State, ∃ t d, exec .reset s = .next t ∧
    t.engine.h =
      #v[0x6a09e667#32, 0xbb67ae85#32, 0x3c6ef372#32, 0xa54ff53a#32,
         0x510e527f#32, 0x9b05688c#32, 0x1f83d9ab#32, 0x5be0cd19#32] ∧
    t.engine.len = 0#64 ∧
    t.engine.phase = .accepting ∧
    t.engine.buf = s.engine.buf ∧
    t.rsp = some ⟨.ok, d⟩)

/-- 70_reset_and_hazards.md R165 and R166: `rst` at an edge, or rising over a command in progress, leaves the fresh
engine from any engine whatever, keeps the buffer, and presents no response; the port is ready again afterwards. -/
def Obligations.HardwareResetFromAnyState : Prop :=
  ∀ (s : State) (rest : List HostInput),
    (s.inputs = .rst :: rest ∨ ∃ w, s.inputs = .abandoned w :: rest) →
    ∃ t, step s = .next t ∧ t.engine.h = iv ∧ t.engine.len = 0#64 ∧ t.engine.phase = .accepting ∧
      t.engine.buf = s.engine.buf ∧ t.rsp = none ∧
      portSignals .rst t = { cmdReady := false, rspValid := false } ∧
      cmdReady .idle = true ∧ ∀ w, cmdReady (.command w) = true

/-- 40_reset.md R80: RESET in any phase. -/
def Obligations.ResetCommandEffect : Prop :=
  ∀ s : State, ∃ t d, exec .reset s = .next t ∧
    t.engine = { h := iv, buf := s.engine.buf, len := 0#64, phase := .accepting } ∧ t.rsp = some ⟨.ok, d⟩

/-- 40_reset.md R81: after RESET the engine answers every further use of it, hardware resets and idle cycles among it,
as a freshly constructed one does, whatever that one's buffer held. -/
def Obligations.ResetBehavesAsFresh : Prop :=
  ∀ (s t : State) (b : Block) (xs : List HostInput) (n : Nat), exec .reset s = .next t →
    SameOutcome { t with inputs := xs } { State.resetWith b with inputs := xs }
      (run n { t with inputs := xs }) (run n { State.resetWith b with inputs := xs })

/-! ## The step, decoding and encoding -/

/-- A step that finds a command word executes the command it decodes to, the word taken (20_memory.md R48;
30_encoding.md R61, R64; the list of inputs is the model's, log entry 4). -/
def Obligations.StepRunsDecodedCommand : Prop :=
  ∀ (s : State) (w : CmdWord) (rest : List HostInput), s.inputs = .command w :: rest →
    step s = exec (decode w) { s with inputs := rest }

/-- An idle cycle, or no further input, changes nothing of the engine and presents no response (30_encoding.md R61;
70_reset_and_hazards.md R178, R179). -/
def Obligations.IdleChangesNothing : Prop :=
  ∀ s : State, (s.inputs = [] ∨ ∃ rest, s.inputs = .idle :: rest) →
    step s = .next { s with inputs := s.inputs.tail, rsp := none }

/-- The host's inputs are taken one a step, in order, and the record only grows, by at most one event a step: a response
where a command was taken, a hardware reset where `rst` was (20_memory.md R48; 30_encoding.md R68;
70_reset_and_hazards.md R166). All of it is about the model's own fields (log entries 2, 4, 5). -/
def Obligations.InputsTakenInOrder : Prop :=
  ∀ s t : State, step s = .next t →
    t.inputs = s.inputs.tail ∧ s.draws ≤ t.draws ∧
    ((∃ w rest, s.inputs = .command w :: rest) → ∃ i r, t.history = s.history ++ [.answered i r]) ∧
    ((∃ rest, s.inputs = .rst :: rest) ∨ (∃ w rest, s.inputs = .abandoned w :: rest) →
      t.history = s.history ++ [.hardwareReset] ∧ t.draws = s.draws) ∧
    (s.inputs = [] ∨ (∃ rest, s.inputs = .idle :: rest) → t.history = s.history ∧ t.draws = s.draws)

/-- The words of 95_test_vectors.md V22 decode as its table says. -/
def Obligations.DecodeSampleWords : Prop :=
  decode 0b00000000000#11 = .reset ∧ decode 0b00111111111#11 = .reset ∧
  decode 0b01000000000#11 = .appendz ∧ decode 0b01010100101#11 = .appendz ∧
  decode 0b01100000000#11 = .appendb 0x00#8 ∧ decode 0b01101100001#11 = .appendb 0x61#8 ∧
  decode 0b01110000000#11 = .appendb 0x80#8 ∧ decode 0b01111111111#11 = .appendb 0xff#8 ∧
  decode 0b10000000000#11 = .finalize ∧ decode 0b10111111111#11 = .finalize ∧
  decode 0b11000000000#11 = .digest ∧ decode 0b11111111111#11 = .digest

/-- 30_encoding.md R64: every word selects exactly one row of the opcode map, the row of the command it decodes to; the
canonical words; and where APPENDB's byte stands. -/
def Obligations.OpcodeMapCoversEveryWord : Prop :=
  (∀ w : CmdWord, ∃ r ∈ opcodeTable, r.selects w = true ∧ r.mnemonic = (decode w).mnemonic ∧
    ∀ r' ∈ opcodeTable, r'.selects w = true → r' = r) ∧
  (∀ (w : CmdWord) (d : Byte), decode w = .appendb d → d = w.setWidth 8) ∧
  encode .reset = 0x000#11 ∧ encode .appendz = 0x200#11 ∧ (∀ d : Byte, encode (.appendb d) = 0x300#11 + d.setWidth 11) ∧
  encode .finalize = 0x400#11 ∧ encode .digest = 0x600#11

/-- Decoding gives back what was encoded; a word decodes to a command exactly when its used bits are the command's; and
the machine runs exactly the command whose word is placed where it takes its next one (30_encoding.md R62 to R65). -/
def Obligations.DecodeEncodeAgree : Prop :=
  ∀ i : Instr, i.wf = true →
    decode (encode i) = i ∧
    decodeTableWord 16 (encode i).toNat = some i ∧
    (∀ w : CmdWord, decode w = i ↔ w &&& usedBits i = encode i) ∧
    (∀ s : State, step (s.withFetchWord 16 (encode i).toNat) = exec i s)

/-- 30_encoding.md R65: words that differ in ignored bits only have the same effect on everything. -/
def Obligations.IgnoredBitsHaveNoEffect : Prop :=
  ∀ (w w' : CmdWord) (s : State),
    opField w = opField w' →
    (opField w = 1#2 → nField w = nField w' ∧ (nField w = 1#1 → dataField w = dataField w')) →
    step (s.offerInputs [.command w]) = step (s.offerInputs [.command w'])

/-- 30_encoding.md R71 and R72: the words a script line emits. The bytes of a text are its characters' ASCII codes where
every character is ASCII; what byte another character gives is the model's choice (log entry 13), and no clause states
it. -/
def Obligations.ScriptLineWords : Prop :=
  ScriptLine.reset.words = [0x000#11] ∧ ScriptLine.appendz.words = [0x200#11] ∧
  ScriptLine.finalize.words = [0x400#11] ∧ ScriptLine.digest.words = [0x600#11] ∧
  (∀ d : Byte, (ScriptLine.appendb d).words = [0x300#11 + d.setWidth 11]) ∧
  (ScriptLine.append []).words = [0x200#11] ∧
  (∀ (b : Byte) (bs : List Byte),
    (ScriptLine.append (b :: bs)).words = (b :: bs).map fun d => 0x300#11 + d.setWidth 11) ∧
  (∀ text : List Char, (ScriptLine.appendText text).words = (ScriptLine.append (textBytes text)).words) ∧
  (∀ text : List Char, (∀ c ∈ text, c.toNat < 128) → (textBytes text).map BitVec.toNat = text.map Char.toNat)

/-! ## The block buffer -/

/-- 20_memory.md R42: what a byte write and a word write change, and that they change nothing else. -/
def Obligations.WriteThenRead : Prop :=
  (∀ (b : Block) (k k' : BufAddr) (v : Byte),
    memRead8 (memWrite8 b k v) k' = if k' = k then v else memRead8 b k') ∧
  (∀ (b : Block) (i i' : Fin 16) (v : Word),
    memRead32 (memWrite32 b i v) i' = if i' = i then v else memRead32 b i')

/-- 20_memory.md R44: bytes and words are two views of one storage, the lowest address most significant. -/
def Obligations.MixedWidthViews : Prop :=
  (∀ (b : Block) (k : BufAddr) (v : Byte),
    (memRead32 (memWrite8 b k v) (wordIndex k)).extractLsb' (24 - 8 * (k.val % 4)) 8 = v) ∧
  (∀ (b : Block) (i : Fin 16) (j : Fin 4) (k : BufAddr) (v : Word), k.val = 4 * i.val + j.val →
    memRead8 (memWrite32 b i v) k = v.extractLsb' (24 - 8 * j.val) 8) ∧
  (∀ (b : Block) (i : Fin 16) (k0 k1 k2 k3 : BufAddr),
    k0.val = 4 * i.val → k1.val = 4 * i.val + 1 → k2.val = 4 * i.val + 2 → k3.val = 4 * i.val + 3 →
    memRead32 b i = memRead8 b k0 ++ memRead8 b k1 ++ memRead8 b k2 ++ memRead8 b k3)

/-! ## The compression function -/

/-- 44_compression.md R116 to R119: the four sigma functions by formula, bit by bit (a rotated bit comes from the place
`n` higher modulo 32, a shifted one from the place `n` higher or is 0), and on the rules' examples. -/
def Obligations.SigmaFunctions : Prop :=
  (∀ x : Word, ssig0 x = rotr x 7 ^^^ rotr x 18 ^^^ shr x 3) ∧
  (∀ x : Word, ssig1 x = rotr x 17 ^^^ rotr x 19 ^^^ shr x 10) ∧
  (∀ x : Word, bsig0 x = rotr x 2 ^^^ rotr x 13 ^^^ rotr x 22) ∧
  (∀ x : Word, bsig1 x = rotr x 6 ^^^ rotr x 11 ^^^ rotr x 25) ∧
  (∀ (x : Word) (i : Nat), i < 32 →
    (ssig0 x).getLsbD i = ((x.getLsbD ((i + 7) % 32) ^^ x.getLsbD ((i + 18) % 32)) ^^ x.getLsbD (i + 3)) ∧
    (ssig1 x).getLsbD i = ((x.getLsbD ((i + 17) % 32) ^^ x.getLsbD ((i + 19) % 32)) ^^ x.getLsbD (i + 10)) ∧
    (bsig0 x).getLsbD i =
      ((x.getLsbD ((i + 2) % 32) ^^ x.getLsbD ((i + 13) % 32)) ^^ x.getLsbD ((i + 22) % 32)) ∧
    (bsig1 x).getLsbD i =
      ((x.getLsbD ((i + 6) % 32) ^^ x.getLsbD ((i + 11) % 32)) ^^ x.getLsbD ((i + 25) % 32))) ∧
  (ssig0 0x00000000#32 = 0x00000000#32 ∧ ssig0 0x00000001#32 = 0x02004000#32 ∧ ssig0 0x80000000#32 = 0x11002000#32 ∧
    ssig0 0xFFFFFFFF#32 = 0x1FFFFFFF#32 ∧ ssig0 0x12345678#32 = 0xE7FCE6EE#32) ∧
  (ssig1 0x00000000#32 = 0x00000000#32 ∧ ssig1 0x00000001#32 = 0x0000A000#32 ∧ ssig1 0x80000000#32 = 0x00205000#32 ∧
    ssig1 0xFFFFFFFF#32 = 0x003FFFFF#32 ∧ ssig1 0x12345678#32 = 0xA1F78649#32) ∧
  (bsig0 0x00000000#32 = 0x00000000#32 ∧ bsig0 0x00000001#32 = 0x40080400#32 ∧ bsig0 0x80000000#32 = 0x20040200#32 ∧
    bsig0 0xFFFFFFFF#32 = 0xFFFFFFFF#32 ∧ bsig0 0x6A09E667#32 = 0xCE20B47E#32) ∧
  (bsig1 0x00000000#32 = 0x00000000#32 ∧ bsig1 0x00000001#32 = 0x04200080#32 ∧ bsig1 0x80000000#32 = 0x02100040#32 ∧
    bsig1 0xFFFFFFFF#32 = 0xFFFFFFFF#32 ∧ bsig1 0x510E527F#32 = 0x3587272B#32)

/-- 44_compression.md R120 and R121: choice and majority by formula, bit by bit, and on the rules' examples. -/
def Obligations.ChoiceAndMajority : Prop :=
  (∀ x y z : Word, Ch x y z = (x &&& y) ^^^ (~~~x &&& z) ∧ Maj x y z = (x &&& y) ^^^ (x &&& z) ^^^ (y &&& z)) ∧
  (∀ (x y z : Word) (i : Nat), i < 32 →
    (Ch x y z).getLsbD i = (if x.getLsbD i then y.getLsbD i else z.getLsbD i) ∧
    ((Maj x y z).getLsbD i = true ↔ 2 ≤ (x.getLsbD i).toNat + (y.getLsbD i).toNat + (z.getLsbD i).toNat)) ∧
  (∀ y z : Word, Ch 0xFFFFFFFF#32 y z = y ∧ Ch 0x00000000#32 y z = z ∧
    Maj 0#32 y z = y &&& z ∧ Maj 0xFFFFFFFF#32 y z = y ||| z) ∧
  Ch 0xF0F0F0F0#32 0x12345678#32 0x9ABCDEF0#32 = 0x1A3C5E70#32 ∧
  Ch 0x510E527F#32 0x9B05688C#32 0x1F83D9AB#32 = 0x1F85C98C#32 ∧
  Maj 0xFFFFFFFF#32 0x12345678#32 0x9ABCDEF0#32 = 0x9ABCDEF8#32 ∧
  Maj 0x6A09E667#32 0xBB67AE85#32 0x3C6EF372#32 = 0x3A6FE667#32

/-- 44_compression.md R124: the schedule has 64 words, the first sixteen are the block's, the rest follow the
recurrence; and the rule's example. -/
def Obligations.ScheduleRecurrence : Prop :=
  (∀ m : Block, (schedule m).length = 64 ∧
    (∀ i : Fin 16, W m i.val = m[i]) ∧
    (∀ t, 16 ≤ t → t < 64 → W m t = ssig1 (W m (t - 2)) + W m (t - 7) + ssig0 (W m (t - 15)) + W m (t - 16))) ∧
  (∀ m : Block, m = #v[0x61626380#32, 0, 0, 0, 0, 0, 0, 0, 0, 0, 0, 0, 0, 0, 0, 0x00000018#32] →
    W m 16 = 0x61626380#32 ∧ W m 17 = 0x000F0000#32 ∧ W m 18 = 0x7DA86405#32)

/-- 44_compression.md R115: COMPRESS is what its pseudocode computes, for whatever schedule `w` and working variables
`v` follow the pseudocode's assignments. -/
def Obligations.CompressFollowsPseudocode : Prop :=
  ∀ (h : HashWords) (m : Block) (w : Nat → Word) (v : Nat → WorkVars),
    (∀ i : Fin 16, w i.val = m[i]) →
    (∀ t, 16 ≤ t → t < 64 → w t = ssig1 (w (t - 2)) + w (t - 7) + ssig0 (w (t - 15)) + w (t - 16)) →
    v 0 = { a := h[0], b := h[1], c := h[2], d := h[3], e := h[4], f := h[5], g := h[6], hh := h[7] } →
    (∀ t, t < 64 →
      (v (t + 1)).hh = (v t).g ∧ (v (t + 1)).g = (v t).f ∧ (v (t + 1)).f = (v t).e ∧
      (v (t + 1)).e = (v t).d + ((v t).hh + bsig1 (v t).e + Ch (v t).e (v t).f (v t).g + K t + w t) ∧
      (v (t + 1)).d = (v t).c ∧ (v (t + 1)).c = (v t).b ∧ (v (t + 1)).b = (v t).a ∧
      (v (t + 1)).a = ((v t).hh + bsig1 (v t).e + Ch (v t).e (v t).f (v t).g + K t + w t) +
        (bsig0 (v t).a + Maj (v t).a (v t).b (v t).c)) →
    compress h m =
      #v[h[0] + (v 64).a, h[1] + (v 64).b, h[2] + (v 64).c, h[3] + (v 64).d,
         h[4] + (v 64).e, h[5] + (v 64).f, h[6] + (v 64).g, h[7] + (v 64).hh]

/-- 44_compression.md R125: the rolling window holds `W[t]` at `t mod 16` in round `t`, and COMPRESS over it gives the
identical result. -/
def Obligations.RollingWindowIdentical : Prop :=
  ∀ (h : HashWords) (m : Block),
    (∀ t, t < 64 → (windowAt m t)[windowIndex t] = W m t) ∧ compressWindow h m = compress h m

/-- 44_compression.md R126: with registers whose roles move, every round gives the same eight words up to the renaming,
and COMPRESS the identical result. -/
def Obligations.RotatedFormIdentical : Prop :=
  ∀ (h : HashWords) (m : Block),
    (∀ t, t ≤ 64 → rolesAt t (rotatedRounds m t 0 h) = workBefore h m t) ∧ compressRotated h m = compress h m

/-- COMPRESS on the blocks of 95_test_vectors.md V2, V11 and V12. -/
def Obligations.CompressKnownBlocks : Prop :=
  compress iv #v[0x61626380#32, 0, 0, 0, 0, 0, 0, 0, 0, 0, 0, 0, 0, 0, 0, 0x00000018#32] =
    #v[0xba7816bf#32, 0x8f01cfea#32, 0x414140de#32, 0x5dae2223#32,
       0xb00361a3#32, 0x96177a9c#32, 0xb410ff61#32, 0xf20015ad#32] ∧
  compress iv (Vector.replicate 16 0xffffffff#32) =
    #v[0xef0c748d#32, 0xf4da50a8#32, 0xd6c43c01#32, 0x3edc3ce7#32,
       0x6c9d9fa9#32, 0xa1458ade#32, 0x56eb86c0#32, 0xa64492d2#32] ∧
  compress (Vector.replicate 8 0#32) (Vector.replicate 16 0#32) =
    #v[0x7ca51614#32, 0x425c3ba8#32, 0xce54dd2f#32, 0xc2020ae7#32,
       0xb6e574d1#32, 0x98136d0f#32, 0xae7e26cc#32, 0xbf0be7a6#32]

/-! ## Append -/

/-- 41_append.md R86: one byte appended. The byte is stored at the fill position and nowhere else, counted, and the
block is compressed when the position was 63; in FINALIZED the command is rejected and changes nothing. -/
def Obligations.AppendByteEffect : Prop :=
  (∀ (s : State) (d : Byte), s.engine.phase = .accepting → s.engine.len.toNat < Config.maxLen →
    ∃ t x, exec (.appendb d) s = .next t ∧ t.rsp = some ⟨.ok, x⟩ ∧
      t.engine.phase = .accepting ∧
      t.engine.len.toNat = s.engine.len.toNat + 1 ∧
      (∀ k : BufAddr,
        memRead8 t.engine.buf k = if k = fillPosition s.engine.len then d else memRead8 s.engine.buf k) ∧
      t.engine.h =
        if (fillPosition s.engine.len).val = 63 then compress s.engine.h t.engine.buf else s.engine.h) ∧
  (∀ (s : State) (d : Byte), s.engine.phase = .finalized →
    ∃ t x, exec (.appendb d) s = .next t ∧ t.rsp = some ⟨.invalidState, x⟩ ∧ t.engine = s.engine)

/-- 41_append.md R87: the append of zero bytes writes no state in either phase. -/
def Obligations.AppendZeroEffect : Prop :=
  (∀ s : State, s.engine.phase = .accepting →
    ∃ t x, exec .appendz s = .next t ∧ t.rsp = some ⟨.ok, x⟩ ∧ t.engine = s.engine) ∧
  (∀ s : State, s.engine.phase = .finalized →
    ∃ t x, exec .appendz s = .next t ∧ t.rsp = some ⟨.invalidState, x⟩ ∧ t.engine = s.engine)

/-- 60_exceptions.md R144: an APPENDB at `LEN = MAXLEN` has no meaning and is refused. -/
def Obligations.OverLengthAppendRefused : Prop :=
  ∀ (s : State) (d : Byte), s.engine.phase = .accepting → s.engine.len.toNat = 2 ^ 61 - 1 →
    exec (.appendb d) s = .refused .overLength

/-- 41_append.md R88: the multi-byte append in closed form, as a run of the machine from any accepting state. -/
def Obligations.AppendClosedForm : Prop :=
  ∀ (s : State) (bytes : List Byte), s.engine.phase = .accepting →
    s.engine.len.toNat + bytes.length ≤ Config.maxLen →
    ∃ t, run (appendCommands bytes).length (s.offer (appendCommands bytes)) = .next t ∧
      t.engine.h = absorb s.engine.h (pendingBytes s.engine ++ bytes) ∧
      t.engine.len.toNat = s.engine.len.toNat + bytes.length ∧
      pendingBytes t.engine = leftover (pendingBytes s.engine ++ bytes) ∧
      t.engine.phase = .accepting

/-- 41_append.md R89: however a message is split over appends, empty ones among them, the engine ends in the same state
and the digest that FINALIZE and DIGEST then give is the same. -/
def Obligations.ChunkingDoesNotMatter : Prop :=
  ∀ (s : State) (chunks : List (List Byte)), s.engine.phase = .accepting →
    s.engine.len.toNat + chunks.flatten.length ≤ Config.maxLen →
    (∃ t u, run (chunks.flatMap appendCommands).length (s.offer (chunks.flatMap appendCommands)) = .next t ∧
      run (appendCommands chunks.flatten).length (s.offer (appendCommands chunks.flatten)) = .next u ∧
      t.engine = u.engine) ∧
    (∃ t u d,
      run (chunks.flatMap appendCommands ++ [Instr.finalize, Instr.digest]).length
        (s.offer (chunks.flatMap appendCommands ++ [Instr.finalize, Instr.digest])) = .next t ∧
      run (appendCommands chunks.flatten ++ [Instr.finalize, Instr.digest]).length
        (s.offer (appendCommands chunks.flatten ++ [Instr.finalize, Instr.digest])) = .next u ∧
      t.rsp = some ⟨.ok, d⟩ ∧ u.rsp = some ⟨.ok, d⟩)

/-- 30_encoding.md R72: in FINALIZED the expansion of `append` gives one InvalidState response per beat and changes no
state (the record of responses is the model's, log entry 5). -/
def Obligations.AppendRejectedPerBeat : Prop :=
  ∀ (s : State) (bytes : List Byte), s.engine.phase = .finalized →
    ∃ t es, run (appendCommands bytes).length (s.offer (appendCommands bytes)) = .next t ∧
      t.engine = s.engine ∧ t.history = s.history ++ es ∧ es.length = max bytes.length 1 ∧
      ∀ e ∈ es, ∃ i d, e = .answered i ⟨.invalidState, d⟩

/-! ## Finalize -/

/-- 42_finalize.md R95 (and its steps R97, R99, R100), byte by byte. With the fill position below 56, one block: the
pending bytes, `0x80`, zeros, the length. Otherwise two: the pending bytes, `0x80` and zeros; then zeros and the
length. The last block stays in the buffer; words 14 and 15 are `LEN[60:29]` and `LEN[28:0] ‖ 000`. -/
def Obligations.FinalizeEffect : Prop :=
  (∀ s : State, s.engine.phase = .accepting →
    ∃ t x, exec .finalize s = .next t ∧ t.rsp = some ⟨.ok, x⟩ ∧
      t.engine.phase = .finalized ∧
      t.engine.len = s.engine.len ∧
      memRead32 t.engine.buf 14 = s.engine.len.extractLsb' 29 32 ∧
      memRead32 t.engine.buf 15 = s.engine.len.extractLsb' 0 29 ++ 0#3 ∧
      ((fillPosition s.engine.len).val < 56 →
        (∀ k : BufAddr, k.val < 56 →
          memRead8 t.engine.buf k =
            if k < fillPosition s.engine.len then memRead8 s.engine.buf k
            else if k = fillPosition s.engine.len then 0x80#8 else 0x00#8) ∧
        t.engine.h = compress s.engine.h t.engine.buf) ∧
      (56 ≤ (fillPosition s.engine.len).val →
        ∃ first : Block,
          (∀ k : BufAddr,
            memRead8 first k =
              if k < fillPosition s.engine.len then memRead8 s.engine.buf k
              else if k = fillPosition s.engine.len then 0x80#8 else 0x00#8) ∧
          (∀ k : BufAddr, k.val < 56 → memRead8 t.engine.buf k = 0x00#8) ∧
          t.engine.h = compress (compress s.engine.h first) t.engine.buf)) ∧
  (∀ s : State, s.engine.phase = .finalized →
    ∃ t x, exec .finalize s = .next t ∧ t.rsp = some ⟨.invalidState, x⟩ ∧ t.engine = s.engine)

/-- FINALIZE of an engine that holds a message leaves the message's SHA-256 digest, compressing the padded message's
`(L + 8) div 64 + 1` blocks in all (42_finalize.md R98, R102). -/
def Obligations.FinalizeHashesHeldMessage : Prop :=
  ∀ (s : State) (message : List Byte), s.engine.Holds message →
    (∃ t, exec .finalize s = .next t ∧ t.engine.Finalized message) ∧
    (message ++ padding message.length).length = 64 * ((message.length + 8) / 64 + 1) ∧
    (fullBlocks (message ++ padding message.length)).length = (message.length + 8) / 64 + 1

/-! ## Digest -/

/-- 43_digest.md R110: the digest of a finalized engine, nothing written; InvalidState before that. -/
def Obligations.DigestEffect : Prop :=
  (∀ s : State, s.engine.phase = .finalized →
    ∃ t, exec .digest s = .next t ∧ t.engine = s.engine ∧
      t.rsp = some ⟨.ok, s.engine.h[0] ++ s.engine.h[1] ++ s.engine.h[2] ++ s.engine.h[3] ++
        s.engine.h[4] ++ s.engine.h[5] ++ s.engine.h[6] ++ s.engine.h[7]⟩) ∧
  (∀ s : State, s.engine.phase = .accepting →
    ∃ t x, exec .digest s = .next t ∧ t.engine = s.engine ∧ t.rsp = some ⟨.invalidState, x⟩)

/-- 43_digest.md R111: digest byte `q` is byte `q mod 4` of hash word `q div 4`, most significant first. -/
def Obligations.DigestByteOrder : Prop :=
  ∀ (h : HashWords) (i : Fin 8) (j : Fin 4) (q : Fin 32), q.val = 4 * i.val + j.val →
    digestByte (digestBits h) q = h[i].extractLsb' (24 - 8 * j.val) 8

/-- 43_digest.md R112 and 60_exceptions.md R145: whatever commands but RESET come between, rejected ones among them,
every DIGEST in FINALIZED gives the same digest. -/
def Obligations.DigestRepeatable : Prop :=
  ∀ (s : State) (is : List Instr), s.engine.phase = .finalized → (∀ i ∈ is, i ≠ .reset) →
    ∃ t, run (is ++ [Instr.digest]).length (s.offer (is ++ [Instr.digest])) = .next t ∧
      t.engine = s.engine ∧ t.rsp = some ⟨.ok, digestBits s.engine.h⟩

/-! ## The one error, the phase, and what each command writes -/

/-- 60_exceptions.md R140 and R141: when a command raises InvalidState, and that it then changes nothing; a command that
does not raise it is answered OK wherever it has a next state. -/
def Obligations.InvalidStateExactlyWhen : Prop :=
  ∀ (i : Instr) (s : State),
    ((s.engine.phase = .finalized ∧ (i = .appendz ∨ (∃ d, i = .appendb d) ∨ i = .finalize)) ∨
        (s.engine.phase = .accepting ∧ i = .digest) →
      ∃ t x, exec i s = .next t ∧ t.rsp = some ⟨.invalidState, x⟩ ∧ t.engine = s.engine) ∧
    (¬ ((s.engine.phase = .finalized ∧ (i = .appendz ∨ (∃ d, i = .appendb d) ∨ i = .finalize)) ∨
        (s.engine.phase = .accepting ∧ i = .digest)) →
      ∀ t, exec i s = .next t → ∃ x, t.rsp = some ⟨.ok, x⟩)

/-- 10_state.md R28: the transitions of `PHASE`, complete. -/
def Obligations.PhaseTransitions : Prop :=
  (∀ (i : Instr) (s t : State), exec i s = .next t →
    t.engine.phase =
      match s.engine.phase, i with
      | _,          .reset     => .accepting
      | .accepting, .finalize  => .finalized
      | .accepting, .appendb _ => .accepting
      | .accepting, .appendz   => .accepting
      | .accepting, .digest    => .accepting
      | .finalized, .finalize  => .finalized
      | .finalized, .appendb _ => .finalized
      | .finalized, .appendz   => .finalized
      | .finalized, .digest    => .finalized) ∧
  (∀ (s t : State) (rest : List HostInput), s.inputs = .rst :: rest → step s = .next t →
    t.engine.phase = .accepting)

/-- Every command has a next state, but for a byte appended to a message of the largest length, which is refused
(60_exceptions.md R150; 70_reset_and_hazards.md R182; for `LEN` above `MAXLEN` the model's choice, log entry 3). -/
def Obligations.EveryCommandHasOneOutcome : Prop :=
  ∀ (i : Instr) (s : State),
    ((∃ d, i = .appendb d) ∧ s.engine.phase = .accepting ∧ Config.maxLen ≤ s.engine.len.toNat →
      exec i s = .refused .overLength) ∧
    (¬ ((∃ d, i = .appendb d) ∧ s.engine.phase = .accepting ∧ Config.maxLen ≤ s.engine.len.toNat) →
      ∃ t, exec i s = .next t)

/-- What no command but the named ones writes: `LEN` only RESET and APPENDB; `BUF` only APPENDB and FINALIZE; `H` only
RESET, FINALIZE and an APPENDB that completes a block; `PHASE` only RESET and FINALIZE (10_state.md R20, R25, R26, R28;
44_compression.md R130). -/
def Obligations.WriteSets : Prop :=
  ∀ (i : Instr) (s t : State), exec i s = .next t →
    (i ≠ .reset → (∀ d, i ≠ .appendb d) → t.engine.len = s.engine.len) ∧
    (i ≠ .finalize → (∀ d, i ≠ .appendb d) → t.engine.buf = s.engine.buf) ∧
    (i ≠ .reset → i ≠ .finalize → ((∀ d, i ≠ .appendb d) ∨ (fillPosition s.engine.len).val ≠ 63) →
      t.engine.h = s.engine.h) ∧
    (i ≠ .reset → i ≠ .finalize → t.engine.phase = s.engine.phase)

/-- Every answered command has exactly one response, presented at the port and recorded after the earlier ones
(30_encoding.md R68; the record, the inputs and the draw counter are the model's own fields, log entries 2, 4, 5): the
host's inputs are left alone, and a fresh free value is drawn exactly where the digest field is unspecified. -/
def Obligations.OneResponsePerCommand : Prop :=
  ∀ (i : Instr) (s t : State), exec i s = .next t →
    t.inputs = s.inputs ∧
    ∃ r, t.rsp = some r ∧ t.history = s.history ++ [.answered i r] ∧
      t.draws = (if i = .digest ∧ r.status = .ok then s.draws else s.draws + 1)

/-- 70_reset_and_hazards.md R169: a run of commands is answered without error exactly when it follows the protocol. -/
def Obligations.ErrorFreeExactlyByProtocol : Prop :=
  ∀ (s t : State) (is : List Instr), run is.length (s.offer is) = .next t →
    ∃ es, t.history = s.history ++ es ∧
      ((∀ e ∈ es, e.isOk = true) ↔ followsProtocol s.engine.phase is = true)

/-! ## The whole machine -/

/-- 10_state.md R33 (and R30): engines that differ in stale bytes only give the same observations under the same inputs,
for any number of steps, and still differ in stale bytes only; or both are refused alike. -/
def Obligations.StaleBytesNeverObserved : Prop :=
  ∀ (s s' : State) (n : Nat), s.engine.SameButStale s'.engine → s.inputs = s'.inputs →
    SameOutcome s s' (run n s) (run n s')

/-- The engine agrees with the (empty) message of the record at reset, whatever the buffer holds (10_state.md R35; the
record is the model's, log entry 5). -/
def Obligations.AgreementAtReset : Prop :=
  (∀ b : Block, (State.resetWith b).Consistent) ∧ State.reset.Consistent

/-- Every step keeps the engine in agreement with the bytes appended since the last reset: in ACCEPTING their complete
blocks are in `H`, the rest is pending at addresses `0..LEN mod 64 - 1` and `LEN` counts them; in FINALIZED `H` is their
SHA-256 digest (10_state.md R24, R26; 42_finalize.md R102; the record is the model's, log entry 5). -/
def Obligations.StepKeepsAgreement : Prop :=
  ∀ s t : State, s.Consistent → step s = .next t → t.Consistent

/-- 10_state.md R27: every step keeps `LEN` within `MAXLEN`. -/
def Obligations.StepKeepsSupportedLength : Prop :=
  (∀ b : Block, (State.resetWith b).engine.Supported) ∧
  (∀ s t : State, s.engine.Supported → step s = .next t → t.engine.Supported)

/-- 42_finalize.md R102: from any state of the machine, RESET, the bytes of any supported message, FINALIZE and DIGEST
answer the message's SHA-256 digest. -/
def Obligations.MachineComputesSha256 : Prop :=
  ∀ (s : State) (message : List Byte), message.length ≤ Config.maxLen →
    ∃ t, run (.reset :: (appendCommands message ++ [Instr.finalize, Instr.digest])).length
        (s.offer (.reset :: (appendCommands message ++ [Instr.finalize, Instr.digest]))) = .next t ∧
      t.rsp = some ⟨.ok, sha256 message⟩

/-- A copy of an engine made mid-message and the original, each given bytes of its own, each answer the digest of the
shared prefix and their own suffix (10_state.md R36; 60_exceptions.md R156). -/
def Obligations.CopiesHashTheirOwnMessages : Prop :=
  ∀ (s s' : State) (common own own' : List Byte), s.engine.Holds common → s'.engine = s.engine →
    common.length + own.length ≤ Config.maxLen → common.length + own'.length ≤ Config.maxLen →
    ∃ t t', run (appendCommands own ++ [Instr.finalize, Instr.digest]).length
        (s.offer (appendCommands own ++ [Instr.finalize, Instr.digest])) = .next t ∧
      run (appendCommands own' ++ [Instr.finalize, Instr.digest]).length
        (s'.offer (appendCommands own' ++ [Instr.finalize, Instr.digest])) = .next t' ∧
      t.rsp = some ⟨.ok, sha256 (common ++ own)⟩ ∧ t'.rsp = some ⟨.ok, sha256 (common ++ own')⟩

/-- The digests the source prints for the empty message and for "abc" (95_test_vectors.md V1, V2), and the 56-byte
message of V15, whose padding needs a second block. -/
def Obligations.KnownDigests : Prop :=
  sha256 [] = 0xe3b0c44298fc1c149afbf4c8996fb92427ae41e4649b934ca495991b7852b855#256 ∧
  sha256 [0x61#8, 0x62#8, 0x63#8] = 0xba7816bf8f01cfea414140de5dae2223b00361a396177a9cb410ff61f20015ad#256 ∧
  sha256 ((List.range 14).flatMap fun i => (List.range 4).map fun j => BitVec.ofNat 8 (0x61 + i + j)) =
    0x248d6a61d20638b8e5c026930c3e6039a33ce45964ff2167f6ecedd419db06c1#256
end

