-- ==== Sys2Proof/Laws/State.lean ====
section
/-! SUPPORT. One lemma for each field of each state update, true by definition. -/

namespace Sys2Proof.Machine

section Respond
variable (i : Instr) (st : Status) (s : State) (d : DigestBits)

@[simp] theorem respond_engine : (respond i st s).engine = s.engine := rfl
@[simp] theorem respond_inputs : (respond i st s).inputs = s.inputs := rfl
@[simp] theorem respond_rsp : (respond i st s).rsp = some ⟨st, Config.freeDigest s.draws⟩ := rfl
@[simp] theorem respond_history :
    (respond i st s).history = s.history ++ [.answered i ⟨st, Config.freeDigest s.draws⟩] := rfl
@[simp] theorem respond_draws : (respond i st s).draws = s.draws + 1 := rfl
@[simp] theorem respondDigest_engine : (respondDigest i d s).engine = s.engine := rfl
@[simp] theorem respondDigest_inputs : (respondDigest i d s).inputs = s.inputs := rfl
@[simp] theorem respondDigest_rsp : (respondDigest i d s).rsp = some ⟨.ok, d⟩ := rfl
@[simp] theorem respondDigest_history :
    (respondDigest i d s).history = s.history ++ [.answered i ⟨.ok, d⟩] := rfl
@[simp] theorem respondDigest_draws : (respondDigest i d s).draws = s.draws := rfl

end Respond

section Port
variable (s : State) (xs : List HostInput)

@[simp] theorem hardwareReset_engine : (hardwareReset s).engine = s.engine.fresh := rfl
@[simp] theorem hardwareReset_inputs : (hardwareReset s).inputs = s.inputs := rfl
@[simp] theorem hardwareReset_rsp : (hardwareReset s).rsp = none := rfl
@[simp] theorem hardwareReset_history : (hardwareReset s).history = s.history ++ [.hardwareReset] := rfl
@[simp] theorem hardwareReset_draws : (hardwareReset s).draws = s.draws := rfl
@[simp] theorem idleCycle_engine : (idleCycle s).engine = s.engine := rfl
@[simp] theorem idleCycle_inputs : (idleCycle s).inputs = s.inputs := rfl
@[simp] theorem idleCycle_rsp : (idleCycle s).rsp = none := rfl
@[simp] theorem idleCycle_history : (idleCycle s).history = s.history := rfl
@[simp] theorem idleCycle_draws : (idleCycle s).draws = s.draws := rfl
@[simp] theorem takeInput_engine : (takeInput s).engine = s.engine := rfl
@[simp] theorem takeInput_inputs : (takeInput s).inputs = s.inputs.tail := rfl
@[simp] theorem takeInput_rsp : (takeInput s).rsp = s.rsp := rfl
@[simp] theorem takeInput_history : (takeInput s).history = s.history := rfl
@[simp] theorem takeInput_draws : (takeInput s).draws = s.draws := rfl
@[simp] theorem offerInputs_engine : (s.offerInputs xs).engine = s.engine := rfl
@[simp] theorem offerInputs_inputs : (s.offerInputs xs).inputs = xs ++ s.inputs := rfl
@[simp] theorem offerInputs_rsp : (s.offerInputs xs).rsp = s.rsp := rfl
@[simp] theorem offerInputs_history : (s.offerInputs xs).history = s.history := rfl
@[simp] theorem offerInputs_draws : (s.offerInputs xs).draws = s.draws := rfl

end Port

section Engine
variable (e : Engine) (d : Byte)

@[simp] theorem fresh_h : e.fresh.h = iv := rfl
@[simp] theorem fresh_buf : e.fresh.buf = e.buf := rfl
@[simp] theorem fresh_len : e.fresh.len = 0#64 := rfl
@[simp] theorem fresh_phase : e.fresh.phase = .accepting := rfl
@[simp] theorem compressBlock_h : e.compressBlock.h = compress e.h e.buf := rfl
@[simp] theorem compressBlock_buf : e.compressBlock.buf = e.buf := rfl
@[simp] theorem compressBlock_len : e.compressBlock.len = e.len := rfl
@[simp] theorem compressBlock_phase : e.compressBlock.phase = e.phase := rfl
@[simp] theorem storeByte_h : (e.storeByte d).h = e.h := rfl
@[simp] theorem storeByte_buf : (e.storeByte d).buf = memWrite8 e.buf (fillPosition e.len) d := rfl
@[simp] theorem storeByte_len : (e.storeByte d).len = e.len + 1#64 := rfl
@[simp] theorem storeByte_phase : (e.storeByte d).phase = e.phase := rfl
@[simp] theorem mark_h : e.mark.h = e.h := rfl
@[simp] theorem mark_buf : e.mark.buf = placeMarker e.buf (fillPosition e.len) := rfl
@[simp] theorem mark_len : e.mark.len = e.len := rfl
@[simp] theorem mark_phase : e.mark.phase = e.phase := rfl
@[simp] theorem putLength_h : e.putLength.h = e.h := rfl
@[simp] theorem putLength_buf : e.putLength.buf = writeLength e.buf e.len := rfl
@[simp] theorem putLength_len : e.putLength.len = e.len := rfl
@[simp] theorem putLength_phase : e.putLength.phase = e.phase := rfl

theorem appendByte_h :
    (e.appendByte d).h =
      if fillPosition e.len = 63 then compress e.h (memWrite8 e.buf (fillPosition e.len) d) else e.h := by
  unfold Engine.appendByte; split <;> simp_all

@[simp] theorem appendByte_buf : (e.appendByte d).buf = memWrite8 e.buf (fillPosition e.len) d := by
  unfold Engine.appendByte; split <;> simp

@[simp] theorem appendByte_len : (e.appendByte d).len = e.len + 1#64 := by
  unfold Engine.appendByte; split <;> simp

@[simp] theorem appendByte_phase : (e.appendByte d).phase = e.phase := by
  unfold Engine.appendByte; split <;> simp

@[simp] theorem extraBlock_len (t : BufAddr) : (e.extraBlock t).len = e.len := by
  unfold Engine.extraBlock; split <;> simp

@[simp] theorem finalize_len : e.finalize.len = e.len := by simp [Engine.finalize]
@[simp] theorem finalize_phase : e.finalize.phase = .finalized := rfl
@[simp] theorem resetWith_engine (b : Block) : (State.resetWith b).engine = Engine.resetWith b := rfl

end Engine

end Sys2Proof.Machine
end

