-- ==== Sys2Proof/Laws/Memory.lean ====
section
/-! SUPPORT. Laws of the block buffer: byte and word accesses, and the two byte-lane writes of FINALIZE. -/

namespace Sys2Proof.Machine

theorem vector_set_get {α : Type} {n : Nat} (v : Vector α n) (i j : Fin n) (x : α) :
    (v.set i x)[j] = if i = j then x else v[j] := by
  rw [Fin.getElem_fin, Vector.getElem_set]
  simp [Fin.ext_iff]

/-- A slice of a concatenation that lies in its lower part. -/
theorem slice_low {n m : Nat} (a : BitVec n) (b : BitVec m) {o : Nat} (h : o + 8 ≤ m) :
    (a ++ b).extractLsb' o 8 = b.extractLsb' o 8 := by
  apply BitVec.eq_of_getLsbD_eq
  intro i hi
  simp only [BitVec.getLsbD_extractLsb', BitVec.getLsbD_append]
  rw [if_pos (by omega)]

/-- A slice of a concatenation that lies in its upper part. -/
theorem slice_high {n m : Nat} (a : BitVec n) (b : BitVec m) {o : Nat} (h : m ≤ o) :
    (a ++ b).extractLsb' o 8 = a.extractLsb' (o - m) 8 := by
  apply BitVec.eq_of_getLsbD_eq
  intro i hi
  simp only [BitVec.getLsbD_extractLsb', BitVec.getLsbD_append]
  rw [if_neg (by omega)]
  congr 2
  omega

/-- A lane of a word after a byte was put into lane `r`. -/
theorem lane_of_put (w : Word) (v : Byte) (r q : Nat) (hr : r < 4) (hq : q < 4) :
    ((w &&& ~~~(0x000000FF#32 <<< (24 - 8 * r))) ||| (v.setWidth 32 <<< (24 - 8 * r))).extractLsb' (24 - 8 * q) 8 =
      if q = r then v else w.extractLsb' (24 - 8 * q) 8 := by
  ext i hi
  have h255 : ∀ j, (0x000000FF#32).getLsbD j = decide (j < 8) := by
    intro j
    by_cases hj : j < 32
    · interval_cases j <;> rfl
    · rw [BitVec.getLsbD_of_ge _ _ (by omega)]; simp; omega
  by_cases hqr : q = r
  · subst hqr
    simp only [BitVec.getElem_extractLsb', BitVec.getLsbD_or, BitVec.getLsbD_and, BitVec.getLsbD_not,
      BitVec.getLsbD_shiftLeft, h255, BitVec.getLsbD_setWidth, if_true]
    have e : 24 - 8 * q + i - (24 - 8 * q) = i := by omega
    have l : 24 - 8 * q + i < 32 := by omega
    simp [e, l, hi, show i < 32 by omega]
  · simp only [BitVec.getElem_extractLsb', BitVec.getLsbD_or, BitVec.getLsbD_and, BitVec.getLsbD_not,
      BitVec.getLsbD_shiftLeft, h255, BitVec.getLsbD_setWidth, if_neg hqr]
    have l : 24 - 8 * q + i < 32 := by omega
    rcases Nat.lt_or_ge (24 - 8 * q + i) (24 - 8 * r) with h | h
    · simp [l, h]
    · have g : 8 ≤ 24 - 8 * q + i - (24 - 8 * r) := by omega
      have z : v.getLsbD (24 - 8 * q + i - (24 - 8 * r)) = false := BitVec.getLsbD_of_ge _ _ g
      simp [l, z, Nat.not_lt.mpr g]

/-- A byte read after a byte write (20_memory.md R42). -/
theorem memRead8_memWrite8 (b : Block) (k k' : BufAddr) (v : Byte) :
    memRead8 (memWrite8 b k v) k' = if k' = k then v else memRead8 b k' := by
  unfold memRead8 memWrite8
  rw [vector_set_get]
  by_cases hw : wordIndex k = wordIndex k'
  · simp only [hw, if_true, laneShift]
    rw [lane_of_put _ _ _ _ (by omega) (by omega)]
    have : (k'.val % 4 = k.val % 4) ↔ k' = k := by
      have hw' : k.val / 4 = k'.val / 4 := congrArg Fin.val hw
      rw [Fin.ext_iff]; omega
    simp [this]
  · rw [if_neg hw, if_neg]
    rintro rfl
    exact hw rfl

@[simp] theorem memRead8_memWrite8_same (b : Block) (k : BufAddr) (v : Byte) :
    memRead8 (memWrite8 b k v) k = v := by simp [memRead8_memWrite8]

theorem memRead8_memWrite8_ne (b : Block) (k k' : BufAddr) (v : Byte) (h : k' ≠ k) :
    memRead8 (memWrite8 b k v) k' = memRead8 b k' := by simp [memRead8_memWrite8, h]

/-- A byte read after a word write (20_memory.md R44). -/
theorem memRead8_memWrite32 (b : Block) (i : Fin 16) (v : Word) (k : BufAddr) :
    memRead8 (memWrite32 b i v) k =
      if wordIndex k = i then v.extractLsb' (laneShift k) 8 else memRead8 b k := by
  unfold memRead8 memWrite32
  rw [vector_set_get]
  by_cases h : i = wordIndex k
  · simp [h]
  · simp [h, Ne.symm h]

/-- A word is its four bytes, the lowest address most significant (20_memory.md R41). -/
theorem word_eq_bytes (w : Word) :
    w = packWord (w.extractLsb' 24 8) (w.extractLsb' 16 8) (w.extractLsb' 8 8) (w.extractLsb' 0 8) := by
  unfold packWord
  apply BitVec.eq_of_getLsbD_eq
  intro i hi
  simp only [BitVec.getLsbD_append, BitVec.getLsbD_extractLsb']
  rcases Nat.lt_or_ge i 8 with h0 | h0
  · simp [h0]
  rcases Nat.lt_or_ge (i - 8) 8 with h1 | h1
  · simp [Nat.not_lt.mpr h0, h1, show 8 + (i - 8) = i by omega]
  rcases Nat.lt_or_ge (i - 8 - 8) 8 with h2 | h2
  · simp [Nat.not_lt.mpr h0, Nat.not_lt.mpr h1, h2, show 16 + (i - 8 - 8) = i by omega]
  · simp [Nat.not_lt.mpr h0, Nat.not_lt.mpr h1, Nat.not_lt.mpr h2, show i - 8 - 8 - 8 < 8 by omega,
      show 24 + (i - 8 - 8 - 8) = i by omega]

/-- The address of byte `j` of word `i`. -/
def byteAddr (i : Fin 16) (j : Fin 4) : BufAddr := ⟨4 * i.val + j.val, by omega⟩

theorem memRead8_byteAddr (b : Block) (i : Fin 16) (j : Fin 4) :
    memRead8 b (byteAddr i j) = b[i].extractLsb' (24 - 8 * j.val) 8 := by
  unfold memRead8 laneShift byteAddr wordIndex
  have h1 : (4 * i.val + j.val) / 4 = i.val := by omega
  have h2 : (4 * i.val + j.val) % 4 = j.val := by omega
  simp only [h1, h2, Fin.getElem_fin]

theorem memRead32_eq_bytes (b : Block) (i : Fin 16) :
    memRead32 b i =
      packWord (memRead8 b (byteAddr i 0)) (memRead8 b (byteAddr i 1)) (memRead8 b (byteAddr i 2))
        (memRead8 b (byteAddr i 3)) := by
  simp only [memRead8_byteAddr, memRead32]
  exact word_eq_bytes _

/-- Two buffers with the same bytes are the same buffer. -/
theorem block_ext {b b' : Block} (h : ∀ k, memRead8 b k = memRead8 b' k) : b = b' := by
  apply Vector.ext
  intro i hi
  have := memRead32_eq_bytes b ⟨i, hi⟩
  rw [h, h, h, h, ← memRead32_eq_bytes] at this
  exact this

/-- A byte read after words were cleared. -/
theorem memRead8_zeroWords (b : Block) (lo hi : Nat) (k : BufAddr) :
    memRead8 (zeroWords b lo hi) k = if lo ≤ k.val / 4 ∧ k.val / 4 < hi then 0#8 else memRead8 b k := by
  unfold memRead8 zeroWords
  rw [Fin.getElem_fin, Vector.getElem_ofFn]
  by_cases h : lo ≤ k.val / 4 ∧ k.val / 4 < hi
  · simp [wordIndex, h]
  · simp only [wordIndex, Fin.getElem_fin, h, if_false]

/-- A lane of a word whose first `r` bytes were kept and that was marked in lane `r` (42_finalize.md R96). -/
theorem lane_of_marked (w : Word) (r q : Nat) (hr : r < 4) (hq : q < 4) :
    ((w &&& keepMask r) ||| padMarker r).extractLsb' (24 - 8 * q) 8 =
      if q < r then w.extractLsb' (24 - 8 * q) 8 else if q = r then 0x80#8 else 0#8 := by
  have key : ∀ (m c : Word) (s : Nat), ((w &&& m) ||| c).extractLsb' s 8 =
      (w.extractLsb' s 8 &&& m.extractLsb' s 8) ||| c.extractLsb' s 8 := by
    intro m c s; ext i hi; simp
  rw [key]
  have allOnes : ∀ x : Byte, x &&& 255#8 = x := by decide
  interval_cases r <;> interval_cases q <;>
    simp [keepMask, padMarker, allOnes]

/-- The buffer bytes once the marker is placed (42_finalize.md R96). -/
theorem memRead8_placeMarker (b : Block) (t k : BufAddr) :
    memRead8 (placeMarker b t) k =
      if k < t then memRead8 b k else if k = t then 0x80#8 else 0#8 := by
  unfold placeMarker
  rw [memRead8_zeroWords, memRead8_memWrite32]
  simp only [wordIndex, Fin.mk.injEq]
  rcases Nat.lt_trichotomy (k.val / 4) (t.val / 4) with h | h | h
  · have h1 : ¬ (t.val / 4 + 1 ≤ k.val / 4 ∧ k.val / 4 < 16) := by omega
    have h2 : k < t := by rw [Fin.lt_def]; omega
    rw [if_neg h1, if_neg (Nat.ne_of_lt h), if_pos h2]
  · have h1 : ¬ (t.val / 4 + 1 ≤ k.val / 4 ∧ k.val / 4 < 16) := by omega
    rw [if_neg h1, if_pos h, laneShift, lane_of_marked _ _ _ (by omega) (by omega)]
    have e1 : (k.val % 4 < t.val % 4) ↔ k < t := by rw [Fin.lt_def]; omega
    have e2 : (k.val % 4 = t.val % 4) ↔ k = t := by rw [Fin.ext_iff]; omega
    simp only [e1, e2]
    simp only [memRead8, laneShift, wordIndex, h]
  · have h1 : t.val / 4 + 1 ≤ k.val / 4 ∧ k.val / 4 < 16 := by omega
    have h2 : ¬ k < t := by rw [Fin.lt_def]; omega
    have h3 : ¬ k = t := by rw [Fin.ext_iff]; omega
    rw [if_pos h1, if_neg h2, if_neg h3]

/-- The buffer bytes once the length field is written (42_finalize.md R99). -/
theorem memRead8_writeLength (b : Block) (len : Length) (k : BufAddr) :
    memRead8 (writeLength b len) k =
      if k.val < 56 then memRead8 b k else (bitLength len).extractLsb' (8 * (63 - k.val)) 8 := by
  unfold writeLength
  rw [memRead8_memWrite32, memRead8_memWrite32]
  have e15 : (wordIndex k = 15) ↔ k.val / 4 = 15 := by simp [wordIndex, Fin.ext_iff]
  have e14 : (wordIndex k = 14) ↔ k.val / 4 = 14 := by simp [wordIndex, Fin.ext_iff]
  simp only [e15, e14]
  have lane : ∀ (x : BitVec 64) (s o : Nat), o + 8 ≤ 32 → (x.extractLsb' s 32).extractLsb' o 8 = x.extractLsb' (s + o) 8 := by
    intro x s o ho
    ext i hi
    simp [show o + i < 32 by omega, Nat.add_assoc]
  by_cases h15 : k.val / 4 = 15
  · rw [if_pos h15, if_neg (by omega), lengthLow, lane _ _ _ (by unfold laneShift; omega)]
    congr 1
    unfold laneShift; omega
  · rw [if_neg h15]
    by_cases h14 : k.val / 4 = 14
    · rw [if_pos h14, if_neg (by omega), lengthHigh, lane _ _ _ (by unfold laneShift; omega)]
      congr 1
      unfold laneShift; omega
    · rw [if_neg h14, if_pos (by omega)]

end Sys2Proof.Machine
end

