-- ==== Sys2Proof/Laws/Compress.lean ====
section
/-! SUPPORT. Laws of the compression function: the schedule by its recurrence, the rounds one by one, and the two other
forms the spec permits. -/

namespace Sys2Proof.Machine

/-! ## Rotation -/

/-- A rotated bit comes from the place `n` higher, modulo 32 (00_scope.md R10). -/
theorem getLsbD_rotr (x : Word) {n i : Nat} (hn : 0 < n) (hn' : n < 32) (hi : i < 32) :
    (rotr x n).getLsbD i = x.getLsbD ((i + n) % 32) := by
  unfold rotr
  simp only [BitVec.getLsbD_or, BitVec.getLsbD_ushiftRight, BitVec.getLsbD_shiftLeft]
  rcases Nat.lt_or_ge (i + n) 32 with h | h
  · rw [Nat.mod_eq_of_lt h]
    simp [hi, show i < 32 - n by omega, Nat.add_comm]
  · rw [show (i + n) % 32 = i - (32 - n) by omega, BitVec.getLsbD_of_ge _ (n + i) (by omega)]
    simp [hi, show ¬ i < 32 - n by omega]

/-! ## The schedule -/

/-- Extending the schedule puts new words before the old ones, newest first. -/
theorem extendSchedule_front (n : Nat) : ∀ ws : List Word,
    ∃ front : List Word, extendSchedule n ws = front ++ ws ∧ front.length = n := by
  induction n with
  | zero => intro ws; exact ⟨[], rfl, rfl⟩
  | succ n ih =>
    intro ws
    obtain ⟨front, he, hl⟩ := ih (nextScheduleWord ws :: ws)
    exact ⟨front ++ [nextScheduleWord ws], by simp [extendSchedule, he], by simp [hl]⟩

/-- Extending the schedule keeps the words it has. -/
theorem extendSchedule_old (n : Nat) (ws : List Word) {t : Nat} (ht : t < ws.length) :
    (extendSchedule n ws).reverse.getD t 0#32 = ws.reverse.getD t 0#32 := by
  obtain ⟨front, he, _⟩ := extendSchedule_front n ws
  rw [he, List.reverse_append, List.getD_append _ _ _ _ (by simpa using ht)]

/-- A word counted from the newest, counted from the oldest. -/
theorem getD_newest (ws : List Word) {j : Nat} (hj : j < ws.length) :
    ws.getD j 0#32 = ws.reverse.getD (ws.length - 1 - j) 0#32 := by
  rw [List.getD_eq_getElem _ _ hj, List.getD_eq_getElem _ _ (by rw [List.length_reverse]; omega), List.getElem_reverse]
  congr 1; omega

/-- Every word the extension adds follows the recurrence. -/
theorem extendSchedule_new (n : Nat) : ∀ ws : List Word, 16 ≤ ws.length →
    ∀ t, ws.length ≤ t → t < ws.length + n →
      (extendSchedule n ws).reverse.getD t 0#32 =
        ssig1 ((extendSchedule n ws).reverse.getD (t - 2) 0#32) + (extendSchedule n ws).reverse.getD (t - 7) 0#32 +
          ssig0 ((extendSchedule n ws).reverse.getD (t - 15) 0#32) + (extendSchedule n ws).reverse.getD (t - 16) 0#32 := by
  induction n with
  | zero => intro ws _ t h1 h2; omega
  | succ n ih =>
    intro ws hws t h1 h2
    rcases Nat.eq_or_lt_of_le h1 with h | h
    · subst h
      have old : ∀ j, j < ws.length → (extendSchedule (n + 1) ws).reverse.getD j 0#32 = ws.reverse.getD j 0#32 :=
        fun j hj => extendSchedule_old (n + 1) ws hj
      rw [old (ws.length - 2) (by omega), old (ws.length - 7) (by omega), old (ws.length - 15) (by omega),
        old (ws.length - 16) (by omega)]
      show (extendSchedule n (nextScheduleWord ws :: ws)).reverse.getD ws.length 0#32 = _
      rw [extendSchedule_old n _ (by simp), List.reverse_cons, List.getD_append_right _ _ _ _ (by simp)]
      simp only [List.length_reverse, Nat.sub_self, List.getD_cons_zero, nextScheduleWord]
      rw [getD_newest ws (j := 1) (by omega), getD_newest ws (j := 6) (by omega), getD_newest ws (j := 14) (by omega),
        getD_newest ws (j := 15) (by omega)]
      rfl
    · exact ih (nextScheduleWord ws :: ws) (by simp; omega) t (by simp; omega) (by simp; omega)

@[simp] theorem schedule_length (m : Block) : (schedule m).length = 64 := by
  obtain ⟨front, he, hl⟩ := extendSchedule_front 48 m.toList.reverse
  simp [schedule, he, hl]

/-- The first sixteen schedule words are the block's (44_compression.md R124). -/
theorem W_of_block (m : Block) (i : Fin 16) : W m i.val = m[i] := by
  have hm : m.toList.reverse.length = 16 := by simp
  rw [W, schedule, extendSchedule_old 48 _ (by rw [hm]; exact i.isLt), List.reverse_reverse]
  rw [List.getD_eq_getElem _ _ (by simp)]
  simp

/-- The recurrence (44_compression.md R124). -/
theorem W_recurrence (m : Block) {t : Nat} (h16 : 16 ≤ t) (h64 : t < 64) :
    W m t = ssig1 (W m (t - 2)) + W m (t - 7) + ssig0 (W m (t - 15)) + W m (t - 16) := by
  have hm : m.toList.reverse.length = 16 := by simp
  exact extendSchedule_new 48 m.toList.reverse (by omega) t (by omega) (by omega)

/-! ## The rounds -/

theorem roundConstants_length : roundConstants.length = 64 := rfl

/-- The first `t` rounds of the fold are `t` rounds one by one. -/
theorem rounds_take (h : HashWords) (m : Block) : ∀ t, t ≤ 64 →
    ((roundConstants.zip (schedule m)).take t).foldl (fun v kw => roundStep v kw.1 kw.2) (WorkVars.ofHash h) =
      workBefore h m t := by
  intro t
  induction t with
  | zero => intro _; rfl
  | succ t ih =>
    intro ht
    have hz : t < (roundConstants.zip (schedule m)).length := by
      rw [List.length_zip, roundConstants_length, schedule_length]; omega
    rw [List.take_succ_eq_append_getElem hz, List.foldl_append, ih (by omega), List.getElem_zip]
    simp only [List.foldl_cons, List.foldl_nil, workBefore, K, W]
    rw [List.getD_eq_getElem _ _ (by rw [roundConstants_length]; omega),
      List.getD_eq_getElem _ _ (by rw [schedule_length]; omega)]

/-- COMPRESS is the feed-forward after round 63 (44_compression.md R115). -/
theorem compress_eq (h : HashWords) (m : Block) : compress h m = feedForward h (workBefore h m 64) := by
  have := rounds_take h m 64 (Nat.le_refl _)
  rw [List.take_of_length_le (by rw [List.length_zip, roundConstants_length, schedule_length]; omega)] at this
  rw [compress, rounds, this]

/-! ## The rolling window -/

/-- The window of round `t` holds the last schedule words (44_compression.md R125). -/
theorem windowAt_holds (m : Block) (t : Nat) : t < 64 →
    ∀ j, j < 16 ∨ j ≤ t → t < j + 16 → (windowAt m t)[windowIndex j] = W m j := by
  induction t with
  | zero =>
    intro _ j hj _
    have hj16 : j < 16 := by omega
    have := W_of_block m ⟨j, hj16⟩
    simp only [windowAt, slideWindow, windowIndex, Nat.mod_eq_of_lt hj16]
    exact this.symm
  | succ t ih =>
    intro ht j hj hjt
    have ih := ih (by omega)
    simp only [windowAt, slideWindow]
    split
    · exact ih j (by omega) (by omega)
    · rename_i h16
      rw [vector_set_get]
      by_cases hw : windowIndex (t + 1) = windowIndex j
      · have hj1 : j = t + 1 := by
          have : (t + 1) % 16 = j % 16 := congrArg Fin.val hw
          omega
        have i14 : windowIndex (t + 1 + 14) = windowIndex (t + 1 - 2) := Fin.ext (by simp only [windowIndex]; omega)
        have i9 : windowIndex (t + 1 + 9) = windowIndex (t + 1 - 7) := Fin.ext (by simp only [windowIndex]; omega)
        have i1 : windowIndex (t + 1 + 1) = windowIndex (t + 1 - 15) := Fin.ext (by simp only [windowIndex]; omega)
        have i0 : windowIndex (t + 1) = windowIndex (t + 1 - 16) := Fin.ext (by simp only [windowIndex]; omega)
        rw [if_pos hw, hj1, W_recurrence m (by omega) ht, ← ih (t + 1 - 2) (by omega) (by omega),
          ← ih (t + 1 - 7) (by omega) (by omega), ← ih (t + 1 - 15) (by omega) (by omega),
          ← ih (t + 1 - 16) (by omega) (by omega)]
        simp only [i14, i9, i1, ← i0]
      · rw [if_neg hw]
        have hne : j ≠ t + 1 := fun hc => hw (by rw [hc])
        exact ih j (by omega) (by omega)

/-- The window before round `t`. -/
def windowBefore (m : Block) : Nat → Block
  | 0     => m
  | t + 1 => windowAt m t

theorem slideWindow_windowBefore (m : Block) (t : Nat) : slideWindow t (windowBefore m t) = windowAt m t := by
  cases t <;> rfl

/-- The rounds over the window are the rounds. -/
theorem windowRounds_eq (h : HashWords) (m : Block) (n : Nat) : ∀ t, t + n ≤ 64 →
    windowRounds n t (windowBefore m t) (workBefore h m t) = workBefore h m (t + n) := by
  induction n with
  | zero => intro t _; rfl
  | succ n ih =>
    intro t ht
    have hw := windowAt_holds m t (by omega) t (.inr (Nat.le_refl _)) (by omega)
    rw [windowRounds, slideWindow_windowBefore, hw]
    have := ih (t + 1) (by omega)
    rw [show t + (n + 1) = t + 1 + n by omega]
    exact this

/-! ## The rotated registers -/

/-- One rotated round is one round, up to the roles (44_compression.md R126). -/
theorem rolesAt_rotatedRound (t : Nat) (k w : Word) (v : HashWords) :
    rolesAt (t + 1) (rotatedRound t k w v) = roundStep (rolesAt t v) k w := by
  have shift : ∀ r, roleRegister (r + 1) (t + 1) = roleRegister r t := fun r =>
    Fin.ext (by simp only [roleRegister]; omega)
  have wrap : roleRegister 0 (t + 1) = roleRegister 7 t := Fin.ext (by simp only [roleRegister]; omega)
  have ne : ∀ {r q : Nat}, r < 8 → q < 8 → r ≠ q → roleRegister r t ≠ roleRegister q t := by
    intro r q hr hq hne hc
    have : (r + 7 * t) % 8 = (q + 7 * t) % 8 := congrArg Fin.val hc
    omega
  have s1 := shift 0; have s2 := shift 1; have s3 := shift 2; have s4 := shift 3
  have s5 := shift 4; have s6 := shift 5; have s7 := shift 6
  simp only [Nat.zero_add, Nat.reduceAdd] at s1 s2 s3 s4 s5 s6 s7
  simp only [rolesAt, rotatedRound, roundStep, wrap, s1, s2, s3, s4, s5, s6, s7, vector_set_get]
  simp [ne]

/-- After `t` rotated rounds the registers in their roles are the working variables. -/
theorem rolesAt_rotatedRounds (h : HashWords) (m : Block) (n : Nat) : ∀ t v, rolesAt t v = workBefore h m t →
    rolesAt (t + n) (rotatedRounds m n t v) = workBefore h m (t + n) := by
  induction n with
  | zero => intro t v hv; exact hv
  | succ n ih =>
    intro t v hv
    rw [rotatedRounds, show t + (n + 1) = t + 1 + n by omega]
    apply ih
    rw [rolesAt_rotatedRound, hv, workBefore]

end Sys2Proof.Machine
end

