-- ==== Sys2Proof/Laws/Exec.lean ====
section
/-! SUPPORT. What executing a command can do, said once, and runs of commands as a fold of `exec`. -/

namespace Sys2Proof.Machine

/-! ## One command -/

/-- What a command whose phase is right does to the engine. -/
def effect : Instr → Engine → Engine
  | .reset,     e => e.fresh
  | .appendz,   e => e
  | .appendb d, e => e.appendByte d
  | .finalize,  e => e.finalize
  | .digest,    e => e

/-- The one case without a next state: a byte appended to a message of the largest length. -/
def overLong (i : Instr) (e : Engine) : Prop :=
  (∃ d, i = .appendb d) ∧ e.phase = .accepting ∧ Config.maxLen ≤ e.len.toNat

/-- The state after a command whose phase is right. -/
def answered (i : Instr) (s : State) : State :=
  match i with
  | .digest => respondDigest .digest (digestBits s.engine.h) s
  | _       => respond i .ok { s with engine := effect i s.engine }

@[simp] theorem answered_engine (i : Instr) (s : State) : (answered i s).engine = effect i s.engine := by
  cases i <;> rfl

@[simp] theorem answered_inputs (i : Instr) (s : State) : (answered i s).inputs = s.inputs := by
  cases i <;> rfl

/-- `violates`, case by case (60_exceptions.md R140). -/
theorem violates_iff (i : Instr) (p : Phase) :
    violates i p = true ↔
      (p = .finalized ∧ (i = .appendz ∨ (∃ d, i = .appendb d) ∨ i = .finalize)) ∨ (p = .accepting ∧ i = .digest) := by
  cases i <;> cases p <;> simp [violates, requiredPhase]

theorem exec_of_violates {i : Instr} {s : State} (h : violates i s.engine.phase = true) :
    exec i s = .next (respond i .invalidState s) := by
  cases i <;> simp_all [exec, execAppendb, execAppendz, execFinalize, execDigest, checkPhase, raiseInvalidState,
    violates, requiredPhase]

theorem exec_of_ok {i : Instr} {s : State} (h : violates i s.engine.phase = false) (ho : ¬ overLong i s.engine) :
    exec i s = .next (answered i s) := by
  cases i with
  | reset => rfl
  | appendz => simp [exec, execAppendz, checkPhase, h, complete, answered, effect]
  | appendb d =>
    have hp : s.engine.phase = .accepting := by
      cases hq : s.engine.phase <;> simp_all [violates, requiredPhase]
    have hl : s.engine.len.toNat < Config.maxLen := by
      by_contra hc
      exact ho ⟨⟨d, rfl⟩, hp, Nat.not_lt.mp hc⟩
    simp [exec, execAppendb, checkPhase, h, complete, answered, effect, hl]
  | finalize => simp [exec, execFinalize, checkPhase, h, complete, answered, effect]
  | digest => simp [exec, execDigest, checkPhase, h, answered]

theorem exec_of_overLong {i : Instr} {s : State} (ho : overLong i s.engine) : exec i s = .refused .overLength := by
  obtain ⟨⟨d, rfl⟩, hp, hl⟩ := ho
  have hv : violates (.appendb d) s.engine.phase = false := by simp [hp, violates, requiredPhase]
  simp [exec, execAppendb, checkPhase, hv, Nat.not_lt.mpr hl]

/-- Everything executing a command can do. -/
theorem exec_cases (i : Instr) (s : State) :
    (violates i s.engine.phase = true ∧ exec i s = .next (respond i .invalidState s)) ∨
    (violates i s.engine.phase = false ∧ ¬ overLong i s.engine ∧ exec i s = .next (answered i s)) ∨
    (violates i s.engine.phase = false ∧ overLong i s.engine ∧ exec i s = .refused .overLength) := by
  cases hv : violates i s.engine.phase with
  | true => exact .inl ⟨rfl, exec_of_violates hv⟩
  | false =>
    by_cases ho : overLong i s.engine
    · exact .inr (.inr ⟨rfl, ho, exec_of_overLong ho⟩)
    · exact .inr (.inl ⟨rfl, ho, exec_of_ok hv ho⟩)

/-- If a command gives a next state, it was rejected with InvalidState or it was answered. -/
theorem exec_next {i : Instr} {s t : State} (h : exec i s = .next t) :
    (violates i s.engine.phase = true ∧ t = respond i .invalidState s) ∨
    (violates i s.engine.phase = false ∧ ¬ overLong i s.engine ∧ t = answered i s) := by
  rcases exec_cases i s with ⟨hv, he⟩ | ⟨hv, ho, he⟩ | ⟨_, _, he⟩
  · rw [he] at h; cases h; exact .inl ⟨hv, rfl⟩
  · rw [he] at h; cases h; exact .inr ⟨hv, ho, rfl⟩
  · rw [he] at h; cases h

/-- A command leaves the host's inputs alone. -/
theorem exec_inputs {i : Instr} {s t : State} (h : exec i s = .next t) : t.inputs = s.inputs := by
  rcases exec_next h with ⟨_, rfl⟩ | ⟨_, _, rfl⟩ <;> simp

/-- A command does not read the host's further inputs. -/
theorem exec_offerInputs (i : Instr) (s : State) (xs : List HostInput) :
    exec i (s.offerInputs xs) =
      match exec i s with
      | .next t    => .next (t.offerInputs xs)
      | .fault r   => .fault r
      | .refused r => .refused r := by
  rcases exec_cases i s with ⟨hv, he⟩ | ⟨hv, ho, he⟩ | ⟨_, ho, he⟩
  · rw [he, exec_of_violates (s := s.offerInputs xs) hv]; rfl
  · rw [he, exec_of_ok (s := s.offerInputs xs) hv ho]; cases i <;> rfl
  · rw [he, exec_of_overLong (s := s.offerInputs xs) ho]

/-! ## Decoding what was encoded -/

theorem decode_cmdWord (op : BitVec 2) (n : BitVec 1) (d : Byte) :
    decode (cmdWord op n d) =
      if op = 0#2 then .reset
      else if op = 1#2 then (if n = 0#1 then .appendz else .appendb d)
      else if op = 2#2 then .finalize else .digest := by
  have h1 : opField (cmdWord op n d) = op := by revert op n d; decide
  have h2 : nField (cmdWord op n d) = n := by revert op n d; decide
  have h3 : dataField (cmdWord op n d) = d := by revert op n d; decide
  rw [decode, h1, h2, h3]

@[simp] theorem decode_encode (i : Instr) : decode (encode i) = i := by
  cases i <;> simp [encode, decode_cmdWord]

/-! ## Steps and runs -/

@[simp] theorem nextInput_offerInputs_cons (s : State) (x : HostInput) (xs : List HostInput) :
    nextInput (s.offerInputs (x :: xs)) = x := rfl

@[simp] theorem takeInput_offerInputs_cons (s : State) (x : HostInput) (xs : List HostInput) :
    takeInput (s.offerInputs (x :: xs)) = s.offerInputs xs := rfl

/-- The next input is taken and served. -/
theorem step_of_inputs {s : State} {x : HostInput} {rest : List HostInput} (h : s.inputs = x :: rest) :
    step s = serve x { s with inputs := rest } := by
  simp [step, nextInput, takeInput, h]

theorem step_offer_cons (s : State) (i : Instr) (is : List Instr) :
    step (s.offer (i :: is)) = exec i (s.offer is) := by
  show serve (.command (encode i)) (s.offer is) = _
  simp [serve]

@[simp] theorem run_zero (s : State) : run 0 s = .next s := rfl

theorem run_succ (n : Nat) (s : State) :
    run (n + 1) s =
      match step s with
      | .next t    => run n t
      | .fault r   => .fault r
      | .refused r => .refused r := by
  have hc : Sys2Proof.core.step s = step s := rfl
  simp only [run, Host.Core.run, hc]
  cases step s <;> rfl

/-- The commands executed one after the other. -/
def runAll : List Instr → State → Host.Outcome State Fault Refusal
  | [],      s => .next s
  | i :: is, s =>
    match exec i s with
    | .next t    => runAll is t
    | .fault r   => .fault r
    | .refused r => .refused r

/-- Stepping through offered commands is executing them in order. -/
theorem run_offer (is : List Instr) : ∀ s : State, run is.length (s.offer is) = runAll is s := by
  induction is with
  | nil => intro s; rfl
  | cons i is ih =>
    intro s
    rw [List.length_cons, run_succ, step_offer_cons, State.offer, exec_offerInputs, runAll]
    cases exec i s with
    | next t => exact ih t
    | fault r => rfl
    | refused r => rfl

theorem runAll_append (is js : List Instr) : ∀ s : State,
    runAll (is ++ js) s =
      match runAll is s with
      | .next t    => runAll js t
      | .fault r   => .fault r
      | .refused r => .refused r := by
  induction is with
  | nil => intro s; rfl
  | cons i is ih =>
    intro s
    simp only [List.cons_append, runAll]
    cases exec i s with
    | next t => exact ih t
    | fault r => rfl
    | refused r => rfl

/-- One more command at the head of a run. -/
theorem runAll_cons_next {i : Instr} {is : List Instr} {s t : State} (h : exec i s = .next t) :
    runAll (i :: is) s = runAll is t := by simp [runAll, h]

theorem runAll_append_next {is js : List Instr} {s t : State} (h : runAll is s = .next t) :
    runAll (is ++ js) s = runAll js t := by rw [runAll_append, h]

/-- Everything a step can do: a command is executed, the engine is reset, or the machine idles. -/
theorem step_next {s t : State} (h : step s = .next t) :
    (∃ w, nextInput s = .command w ∧ exec (decode w) (takeInput s) = .next t) ∨
    ((nextInput s = .rst ∨ ∃ w, nextInput s = .abandoned w) ∧ t = hardwareReset (takeInput s)) ∨
    (nextInput s = .idle ∧ t = idleCycle (takeInput s)) := by
  unfold step serve at h
  cases hx : nextInput s with
  | command w => rw [hx] at h; exact .inl ⟨w, rfl, h⟩
  | rst => rw [hx] at h; cases h; exact .inr (.inl ⟨.inl rfl, rfl⟩)
  | abandoned w => rw [hx] at h; cases h; exact .inr (.inl ⟨.inr ⟨w, rfl⟩, rfl⟩)
  | idle => rw [hx] at h; cases h; exact .inr (.inr ⟨rfl, rfl⟩)

end Sys2Proof.Machine
end

