-- ==== Sys2Proof/Laws/Message.lean ====
section
/-! SUPPORT. Bytes, blocks and the hash of a message: what APPENDB and FINALIZE do in terms of byte sequences. -/

namespace Sys2Proof.Machine

/-! ## Bytes of blocks -/

theorem lane_of_packWord (b0 b1 b2 b3 : Byte) :
    (packWord b0 b1 b2 b3).extractLsb' 24 8 = b0 ∧ (packWord b0 b1 b2 b3).extractLsb' 16 8 = b1 ∧
    (packWord b0 b1 b2 b3).extractLsb' 8 8 = b2 ∧ (packWord b0 b1 b2 b3).extractLsb' 0 8 = b3 := by
  unfold packWord
  refine ⟨?_, ?_, ?_, ?_⟩ <;> ext i hi <;>
    simp only [BitVec.getElem_extractLsb', BitVec.getLsbD_append] <;>
    simp [hi, show ¬ 24 + i < 8 by omega, show ¬ 24 + i - 8 < 8 by omega, show ¬ 24 + i - 8 - 8 < 8 by omega,
      show ¬ 16 + i < 8 by omega, show ¬ 16 + i - 8 < 8 by omega, show ¬ 8 + i < 8 by omega,
      show 24 + i - 8 - 8 - 8 = i by omega, show 16 + i - 8 - 8 = i by omega, show 8 + i - 8 = i by omega]

/-- A byte of a block made from a byte sequence. -/
theorem memRead8_blockAt (bytes : List Byte) (j : Nat) (k : BufAddr) :
    memRead8 (blockAt bytes j) k = bytes.getD (64 * j + k.val) 0#8 := by
  have hk : k = byteAddr ⟨k.val / 4, by omega⟩ ⟨k.val % 4, by omega⟩ := by
    simp only [byteAddr, Fin.ext_iff]; omega
  have hq : k.val % 4 < 4 := Nat.mod_lt _ (by decide)
  conv_lhs => rw [hk]
  rw [memRead8_byteAddr, blockAt, Fin.getElem_fin, Vector.getElem_ofFn]
  obtain ⟨l0, l1, l2, l3⟩ := lane_of_packWord (bytes.getD (64 * j + 4 * (k.val / 4)) 0#8)
    (bytes.getD (64 * j + 4 * (k.val / 4) + 1) 0#8) (bytes.getD (64 * j + 4 * (k.val / 4) + 2) 0#8)
    (bytes.getD (64 * j + 4 * (k.val / 4) + 3) 0#8)
  have hs : k.val = 4 * (k.val / 4) + k.val % 4 := by omega
  have cases4 : k.val % 4 = 0 ∨ k.val % 4 = 1 ∨ k.val % 4 = 2 ∨ k.val % 4 = 3 := by omega
  rcases cases4 with h | h | h | h <;> simp only [h] at hs ⊢
  · rw [l0]; congr 1; omega
  · rw [l1]; congr 1; omega
  · rw [l2]; congr 1; omega
  · rw [l3]; congr 1; omega

@[simp] theorem bufBytes_length (b : Block) : (bufBytes b).length = 64 := by simp [bufBytes]

theorem bufBytes_getElem? (b : Block) (k : BufAddr) : (bufBytes b)[k.val]? = some (memRead8 b k) := by
  simp [bufBytes]

@[simp] theorem pendingBytes_length (e : Engine) : (pendingBytes e).length = (fillPosition e.len).val := by
  rw [pendingBytes, List.length_take, bufBytes_length]; omega

/-- A pending byte is the buffer byte at its address. -/
theorem pendingBytes_getElem? (e : Engine) (k : BufAddr) :
    (pendingBytes e)[k.val]? = if k < fillPosition e.len then some (memRead8 e.buf k) else none := by
  rw [pendingBytes, List.getElem?_take, bufBytes_getElem?]
  rfl

/-- Two engines have the same pending bytes when their buffers agree below the fill position. -/
theorem pendingBytes_congr {e e' : Engine} (hl : e.len = e'.len)
    (h : ∀ k : BufAddr, k < fillPosition e.len → memRead8 e.buf k = memRead8 e'.buf k) :
    pendingBytes e = pendingBytes e' := by
  apply List.ext_getElem?
  intro n
  rcases Nat.lt_or_ge n 64 with hn | hn
  · have h1 := pendingBytes_getElem? e ⟨n, hn⟩
    have h2 := pendingBytes_getElem? e' ⟨n, hn⟩
    simp only at h1 h2
    rw [h1, h2, ← hl]
    split
    · rw [h _ (by assumption)]
    · rfl
  · rw [List.getElem?_eq_none, List.getElem?_eq_none] <;> rw [pendingBytes_length] <;> omega

/-- The buffer is the block of its pending bytes and any bytes that match it above them. -/
theorem buf_eq_blockAt {b : Block} {bytes : List Byte} (h : ∀ k : BufAddr, memRead8 b k = bytes.getD k.val 0#8) :
    b = blockAt bytes 0 := by
  apply block_ext
  intro k
  rw [memRead8_blockAt, h k]
  congr 1; omega

/-! ## Absorbing whole blocks -/

theorem blockAt_append_left {a : List Byte} (c : List Byte) {j : Nat} (h : 64 * j + 64 ≤ a.length) :
    blockAt (a ++ c) j = blockAt a j := by
  apply block_ext
  intro k
  have : 64 * j + k.val < a.length := by omega
  simp [memRead8_blockAt, List.getD_eq_getElem?_getD, List.getElem?_append_left this]

theorem blockAt_append_right (a c : List Byte) {q : Nat} (j : Nat) (h : a.length = 64 * q) :
    blockAt (a ++ c) (q + j) = blockAt c j := by
  apply block_ext
  intro k
  simp only [memRead8_blockAt, List.getD_eq_getElem?_getD]
  rw [List.getElem?_append_right (by omega)]
  congr 2; omega

/-- Absorbing after a whole number of blocks goes on from their hash. -/
theorem absorb_append_blocks (h : HashWords) (a c : List Byte) (ha : a.length % 64 = 0) :
    absorb h (a ++ c) = absorb (absorb h a) c := by
  obtain ⟨q, hq⟩ : ∃ q, a.length = 64 * q := ⟨a.length / 64, by omega⟩
  have hn : (a ++ c).length / 64 = q + c.length / 64 := by rw [List.length_append]; omega
  have ha' : a.length / 64 = q := by omega
  have front : (List.range q).map (blockAt (a ++ c)) = (List.range q).map (blockAt a) :=
    List.map_congr_left fun j hj => blockAt_append_left c (by have := List.mem_range.mp hj; omega)
  have back : (List.range (c.length / 64)).map (blockAt (a ++ c) ∘ (q + ·)) = (List.range (c.length / 64)).map (blockAt c) :=
    List.map_congr_left fun j _ => blockAt_append_right a c j hq
  unfold absorb fullBlocks
  rw [hn, ha', List.range_add, List.map_append, List.foldl_append, List.map_map, front, back]

@[simp] theorem absorb_short (h : HashWords) {a : List Byte} (ha : a.length < 64) : absorb h a = h := by
  simp [absorb, fullBlocks, Nat.div_eq_of_lt ha]

/-- Sixty-four bytes are one block. -/
theorem absorb_one_block (h : HashWords) {a : List Byte} (ha : a.length = 64) : absorb h a = compress h (blockAt a 0) := by
  simp [absorb, fullBlocks, ha]

@[simp] theorem leftover_length (a : List Byte) : (leftover a).length = a.length % 64 := by
  rw [leftover, List.length_drop]; omega

theorem leftover_short {a : List Byte} (ha : a.length < 64) : leftover a = a := by
  simp [leftover, Nat.div_eq_of_lt ha]

/-- Absorbing more bytes goes on with the leftover ones. -/
theorem absorb_append (h : HashWords) (a c : List Byte) : absorb h (a ++ c) = absorb (absorb h a) (leftover a ++ c) := by
  have split : a = a.take (64 * (a.length / 64)) ++ leftover a := by rw [leftover, List.take_append_drop]
  have hl : (a.take (64 * (a.length / 64))).length % 64 = 0 := by
    rw [List.length_take]; omega
  have front : absorb h a = absorb h (a.take (64 * (a.length / 64))) := by
    conv_lhs => rw [split]
    rw [absorb_append_blocks _ _ _ hl, absorb_short]
    rw [leftover_length]; omega
  rw [front]
  conv_lhs => rw [split]
  rw [List.append_assoc, absorb_append_blocks _ _ _ hl]

theorem leftover_append (a c : List Byte) : leftover (a ++ c) = leftover (leftover a ++ c) := by
  have split : a = a.take (64 * (a.length / 64)) ++ leftover a := by rw [leftover, List.take_append_drop]
  conv_lhs => rw [split, List.append_assoc]
  have hl : (a.take (64 * (a.length / 64))).length = 64 * (a.length / 64) := by
    rw [List.length_take]; omega
  unfold leftover
  rw [List.length_append, hl, List.drop_append, hl]
  have e : 64 * ((64 * (a.length / 64) + (List.drop (64 * (a.length / 64)) a ++ c).length) / 64) =
      64 * (a.length / 64) + 64 * ((List.drop (64 * (a.length / 64)) a ++ c).length / 64) := by omega
  rw [e, List.drop_eq_nil_of_le (by rw [hl]; omega)]
  simp

/-! ## What the engine has taken in -/

/-- The engine has absorbed a byte sequence into the hash state `h0`: its complete blocks are compressed, the rest is
pending. -/
structure Engine.Absorbed (e : Engine) (h0 : HashWords) (bytes : List Byte) : Prop where
  hash    : e.h = absorb h0 bytes
  pending : pendingBytes e = leftover bytes
  fill    : e.len.toNat % 64 = bytes.length % 64

/-- Every engine has absorbed its own pending bytes. -/
theorem absorbed_pending (e : Engine) : e.Absorbed e.h (pendingBytes e) := by
  have hlt : (pendingBytes e).length < 64 := by rw [pendingBytes_length]; omega
  refine ⟨(absorb_short _ hlt).symm, (leftover_short hlt).symm, ?_⟩
  rw [pendingBytes_length]
  exact (Nat.mod_mod _ _).symm

theorem fillPosition_succ {len : Length} (hb : len.toNat < Config.maxLen) :
    (len + 1#64).toNat = len.toNat + 1 := by
  rw [BitVec.toNat_add]
  unfold Config.maxLen at hb
  simp
  omega

/-- The fill position after one more byte, whether or not the counter wraps. -/
theorem fill_after_byte (len : Length) : (len + 1#64).toNat % 64 = (len.toNat + 1) % 64 := by
  rw [BitVec.toNat_add]
  simp

/-- Storing a byte in the middle of a block makes it the last pending byte. -/
theorem pendingBytes_storeByte {e : Engine} (d : Byte) (h : fillPosition e.len ≠ 63) :
    pendingBytes (e.storeByte d) = pendingBytes e ++ [d] := by
  have hf : e.len.toNat % 64 < 63 := by
    have : (fillPosition e.len).val ≠ 63 := fun hc => h (Fin.ext hc)
    simp only [fillPosition] at this; omega
  have hn : (e.len + 1#64).toNat % 64 = e.len.toNat % 64 + 1 := by rw [fill_after_byte]; omega
  apply List.ext_getElem?
  intro n
  rcases Nat.lt_or_ge n 64 with hlt | hge
  · have h1 := pendingBytes_getElem? (e.storeByte d) ⟨n, hlt⟩
    have h2 := pendingBytes_getElem? e ⟨n, hlt⟩
    simp only [storeByte_len, storeByte_buf, memRead8_memWrite8, fillPosition, Fin.lt_def, Fin.ext_iff, hn] at h1 h2
    rw [h1]
    rcases Nat.lt_trichotomy n (e.len.toNat % 64) with hc | hc | hc
    · rw [List.getElem?_append_left (by rw [pendingBytes_length]; exact hc), h2]
      simp [hc, Nat.lt_succ_of_lt hc, Nat.ne_of_lt hc]
    · rw [List.getElem?_append_right (by rw [pendingBytes_length]; exact Nat.le_of_eq hc.symm)]
      simp [hc, fillPosition]
    · rw [List.getElem?_eq_none (by simp [fillPosition]; omega)]
      simp [show ¬ n < e.len.toNat % 64 + 1 by omega]
  · rw [List.getElem?_eq_none, List.getElem?_eq_none]
    · rw [List.length_append, pendingBytes_length, List.length_singleton]; simp only [fillPosition]; omega
    · rw [pendingBytes_length]; omega

/-- The buffer whose last byte was just stored is the block of its 63 pending bytes and that byte. -/
theorem full_buffer {e : Engine} (d : Byte) (h : fillPosition e.len = 63) :
    memWrite8 e.buf (fillPosition e.len) d = blockAt (pendingBytes e ++ [d]) 0 := by
  apply buf_eq_blockAt
  intro k
  have hlen : (pendingBytes e).length = 63 := by simp [h]
  rw [memRead8_memWrite8, h, List.getD_eq_getElem?_getD]
  by_cases hk : k = 63
  · subst hk
    rw [List.getElem?_append_right (by rw [hlen]; decide), hlen]
    rfl
  · have hlt : k.val < 63 := by
      have : k.val ≠ 63 := fun hc => hk (Fin.ext hc)
      omega
    rw [List.getElem?_append_left (by omega), pendingBytes_getElem?, h,
      if_pos (show k < (63 : Fin 64) from hlt), if_neg hk]
    rfl

/-- APPENDB adds its byte to what the engine has absorbed. -/
theorem absorbed_appendByte {e : Engine} {h0 : HashWords} {bytes : List Byte} (d : Byte) (ha : e.Absorbed h0 bytes) :
    (e.appendByte d).Absorbed h0 (bytes ++ [d]) := by
  have hfill : (fillPosition e.len).val = (leftover bytes).length := by
    rw [leftover_length, ← ha.fill]; rfl
  have hl : ((e.appendByte d).len).toNat % 64 = (bytes ++ [d]).length % 64 := by
    rw [appendByte_len, fill_after_byte, List.length_append, List.length_singleton]
    have := ha.fill
    omega
  by_cases h : fillPosition e.len = 63
  · have hlen : (leftover bytes ++ [d]).length = 64 := by
      rw [List.length_append, List.length_singleton, ← hfill, h]; rfl
    refine ⟨?_, ?_, hl⟩
    · rw [appendByte_h, if_pos h, full_buffer d h, absorb_append, absorb_one_block _ hlen, ha.pending, ha.hash]
    · have h0 : (leftover (bytes ++ [d])).length = 0 := by
        rw [leftover_append, leftover_length, hlen]
      have h1 : (pendingBytes (e.appendByte d)).length = 0 := by
        rw [pendingBytes_length]
        show (e.appendByte d).len.toNat % 64 = 0
        rw [hl, ← leftover_length, h0]
      rw [List.eq_nil_of_length_eq_zero h0, List.eq_nil_of_length_eq_zero h1]
  · have hlen : (leftover bytes ++ [d]).length < 64 := by
      rw [List.length_append, List.length_singleton, ← hfill]
      have : (fillPosition e.len).val ≠ 63 := fun hc => h (Fin.ext hc)
      omega
    refine ⟨?_, ?_, hl⟩
    · rw [appendByte_h, if_neg h, absorb_append, absorb_short _ hlen, ha.hash]
    · rw [leftover_append, leftover_short hlen, ← ha.pending, ← pendingBytes_storeByte d h]
      unfold Engine.appendByte
      rw [if_neg h]

/-! ## The padding -/

@[simp] theorem lengthBytes_length (n : Nat) : (lengthBytes n).length = 8 := by simp [lengthBytes]

theorem padding_length (n : Nat) : (padding n).length = 1 + (119 - n % 64) % 64 + 8 := by
  simp [padding]; omega

/-- A byte of the length field is a slice of the bit length. -/
theorem lengthBytes_getElem? (len : Length) {q : Nat} (hq : q < 8) :
    (lengthBytes len.toNat)[q]? = some ((bitLength len).extractLsb' (8 * (7 - q)) 8) := by
  have h : BitVec.ofNat 8 (8 * len.toNat / 256 ^ (7 - q)) = (bitLength len).extractLsb' (8 * (7 - q)) 8 := by
    apply BitVec.eq_of_toNat_eq
    rw [BitVec.toNat_ofNat, BitVec.extractLsb'_toNat, bitLength, BitVec.toNat_shiftLeft, Nat.shiftLeft_eq,
      Nat.shiftRight_eq_div_pow]
    have hm : len.toNat * 2 ^ 3 = 8 * len.toNat := by omega
    rw [hm]
    have hp : (256 : Nat) ^ (7 - q) = 2 ^ (8 * (7 - q)) := by rw [Nat.pow_mul]
    rw [hp]
    have h64 : (2 : Nat) ^ 64 = 2 ^ (8 * (7 - q)) * (2 ^ 8 * 2 ^ (8 * q)) := by
      rw [← Nat.pow_add, ← Nat.pow_add]; congr 1; omega
    rw [h64, Nat.mod_mul_right_div_self, Nat.mod_mul_right_mod]
  simp [lengthBytes, hq, h]

/-- A byte of the padding, counted from the marker. -/
theorem padding_getElem? (len : Length) (n : Nat) :
    (padding len.toNat)[n]? =
      if n = 0 then some 0x80#8
      else if n < 1 + (119 - len.toNat % 64) % 64 then some 0#8
      else (lengthBytes len.toNat)[n - (1 + (119 - len.toNat % 64) % 64)]? := by
  cases n with
  | zero => simp [padding]
  | succ n =>
    simp only [padding, List.getElem?_cons_succ, Nat.succ_ne_zero, if_false]
    by_cases h : n < (119 - len.toNat % 64) % 64
    · rw [List.getElem?_append_left (by simpa using h), if_pos (by omega)]
      simp [h]
    · rw [List.getElem?_append_right (by simpa using h), if_neg (by omega), List.length_replicate]
      congr 1; omega

/-- The bytes FINALIZE leaves in the last block, where it compresses once. -/
theorem finalize_one_block {e : Engine} (h : (fillPosition e.len).val < 56) :
    writeLength (placeMarker e.buf (fillPosition e.len)) e.len =
      blockAt (pendingBytes e ++ padding e.len.toNat) 0 := by
  apply buf_eq_blockAt
  intro k
  have hf : (fillPosition e.len).val = e.len.toNat % 64 := rfl
  have hz : (119 - e.len.toNat % 64) % 64 = 55 - e.len.toNat % 64 := by omega
  rw [memRead8_writeLength, memRead8_placeMarker, List.getD_eq_getElem?_getD]
  simp only [Fin.lt_def, Fin.ext_iff, hf]
  rcases Nat.lt_or_ge k.val (e.len.toNat % 64) with hk | hk
  · rw [List.getElem?_append_left (by rw [pendingBytes_length]; exact hk), pendingBytes_getElem?]
    simp [Fin.lt_def, hf, hk, show k.val < 56 by omega]
  · rw [List.getElem?_append_right (by rw [pendingBytes_length]; exact hk), pendingBytes_length, padding_getElem?, hz, hf]
    by_cases hk56 : k.val < 56
    · rw [if_pos hk56, if_neg (by omega)]
      by_cases he : k.val = e.len.toNat % 64
      · simp [he]
      · rw [if_neg he, if_neg (by omega), if_pos (by omega)]; rfl
    · rw [if_neg hk56, if_neg (by omega), if_neg (by omega), lengthBytes_getElem? _ (by omega)]
      simp only [Option.getD_some]
      congr 1; omega

/-- The first of the two blocks FINALIZE compresses where the length field does not fit. -/
theorem finalize_first_block {e : Engine} (h : 56 ≤ (fillPosition e.len).val) :
    placeMarker e.buf (fillPosition e.len) = blockAt (pendingBytes e ++ padding e.len.toNat) 0 := by
  apply buf_eq_blockAt
  intro k
  have hf : (fillPosition e.len).val = e.len.toNat % 64 := rfl
  have hz : (119 - e.len.toNat % 64) % 64 = 119 - e.len.toNat % 64 := by omega
  rw [memRead8_placeMarker, List.getD_eq_getElem?_getD]
  simp only [Fin.lt_def, Fin.ext_iff, hf]
  rcases Nat.lt_or_ge k.val (e.len.toNat % 64) with hk | hk
  · rw [List.getElem?_append_left (by rw [pendingBytes_length]; exact hk), pendingBytes_getElem?]
    simp [Fin.lt_def, hf, hk]
  · rw [List.getElem?_append_right (by rw [pendingBytes_length]; exact hk), pendingBytes_length, padding_getElem?, hz, hf,
      if_neg (by omega)]
    by_cases he : k.val = e.len.toNat % 64
    · simp [he]
    · rw [if_neg he, if_neg (by omega), if_pos (by omega)]; rfl

/-- The second of the two blocks. -/
theorem finalize_second_block {e : Engine} (h : 56 ≤ (fillPosition e.len).val) :
    writeLength (zeroWords (placeMarker e.buf (fillPosition e.len)) 0 ((wordIndex (fillPosition e.len)).val + 1)) e.len =
      blockAt (pendingBytes e ++ padding e.len.toNat) 1 := by
  apply block_ext
  intro k
  have hf : (fillPosition e.len).val = e.len.toNat % 64 := rfl
  have hz : (119 - e.len.toNat % 64) % 64 = 119 - e.len.toNat % 64 := by omega
  rw [memRead8_writeLength, memRead8_zeroWords, memRead8_placeMarker, memRead8_blockAt, List.getD_eq_getElem?_getD,
    List.getElem?_append_right (by rw [pendingBytes_length]; omega), pendingBytes_length, padding_getElem?, hz]
  simp only [wordIndex, Fin.lt_def, Fin.ext_iff, hf, Nat.zero_le, true_and]
  rw [if_neg (show ¬ 64 * 1 + k.val - e.len.toNat % 64 = 0 by omega)]
  by_cases hk : k.val < 56
  · rw [if_pos hk, if_pos (show k.val / 4 < e.len.toNat % 64 / 4 + 1 by omega), if_pos (by omega)]; rfl
  · rw [if_neg hk, if_neg (by omega), lengthBytes_getElem? _ (by omega)]
    simp only [Option.getD_some]
    congr 1; omega

/-- FINALIZE leaves the hash of what was absorbed and its padding. -/
theorem finalize_h {e : Engine} {h0 : HashWords} {bytes : List Byte} (ha : e.Absorbed h0 bytes) :
    e.finalize.h = absorb h0 (bytes ++ padding e.len.toNat) := by
  have hf : (fillPosition e.len).val = e.len.toNat % 64 := rfl
  have hlen : (pendingBytes e ++ padding e.len.toNat).length =
      e.len.toNat % 64 + (1 + (119 - e.len.toNat % 64) % 64 + 8) := by
    rw [List.length_append, pendingBytes_length, padding_length, hf]
  rw [absorb_append, ← ha.hash, ← ha.pending]
  by_cases h : 56 ≤ (fillPosition e.len).val
  · have h128 : (pendingBytes e ++ padding e.len.toNat).length / 64 = 2 := by rw [hlen]; omega
    have : e.finalize.h = compress (compress e.h (placeMarker e.buf (fillPosition e.len)))
        (writeLength (zeroWords (placeMarker e.buf (fillPosition e.len)) 0
          ((wordIndex (fillPosition e.len)).val + 1)) e.len) := by
      simp [Engine.finalize, Engine.extraBlock, h]
    rw [this, finalize_second_block h, finalize_first_block h, absorb, fullBlocks, h128]
    rfl
  · have h64 : (pendingBytes e ++ padding e.len.toNat).length / 64 = 1 := by rw [hlen]; omega
    have : e.finalize.h = compress e.h (writeLength (placeMarker e.buf (fillPosition e.len)) e.len) := by
      simp [Engine.finalize, Engine.extraBlock, h]
    rw [this, finalize_one_block (by omega), absorb, fullBlocks, h64]
    rfl

end Sys2Proof.Machine
end

