-- ==== Sys2Proof/Laws/PerInstr.lean ====
section
/-! SUPPORT. What is said of every instruction, constructor by constructor: its fields fit the command word, its canonical
word decodes to it, and the word depends on its used bits only. -/

namespace Sys2Proof.Laws.CanonicalWord

/-- The instruction is well-formed, its canonical word decodes to it, and has every ignored bit 0
(30_encoding.md R64, R65). -/
def Statement (i : Instr) : Prop :=
  i.wf = true ∧ decode (encode i) = i ∧ encode i &&& usedBits i = encode i

theorem reset : Statement .reset := by unfold Statement; decide

theorem appendz : Statement .appendz := by unfold Statement; decide

theorem appendb (data : Byte) : Statement (.appendb data) := by
  refine ⟨?_, Machine.decode_encode _, ?_⟩
  · simp [Instr.wf, Instr.fields, Fields.wf, data.isLt]
  · have key : ∀ d : Byte, encode (.appendb d) &&& usedBits (.appendb d) = encode (.appendb d) := by decide
    exact key data

theorem finalize : Statement .finalize := by unfold Statement; decide

theorem digest : Statement .digest := by unfold Statement; decide

end Sys2Proof.Laws.CanonicalWord
end

