-- ==== Sys2Proof/Laws/Runs.lean ====
section
/-! SUPPORT. Runs of commands in terms of messages, and engines that differ in stale bytes only. -/

namespace Sys2Proof.Machine

/-! ## Engines that hold a message -/

theorem violates_of_accepting {i : Instr} {s : State} (h : s.engine.phase = .accepting) (hi : i ≠ .digest) :
    violates i s.engine.phase = false := by
  rw [h]; cases i <;> simp_all [violates, requiredPhase]

theorem not_overLong {i : Instr} {e : Engine} (h : ∀ d, i ≠ .appendb d) : ¬ overLong i e := by
  rintro ⟨⟨d, hd⟩, _⟩
  exact h d hd

theorem absorbed_of_holds {e : Engine} {message : List Byte} (h : e.Holds message) : e.Absorbed iv message :=
  ⟨h.hash, h.pending, by rw [h.length]⟩

/-- A fresh engine holds the empty message. -/
theorem holds_empty {e : Engine} (hh : e.h = iv) (hl : e.len = 0#64) (hp : e.phase = .accepting) : e.Holds [] := by
  have h0 : (pendingBytes e).length = 0 := by rw [pendingBytes_length, hl]; rfl
  refine ⟨hp, by simp [hl], by simp, by rw [hh]; rfl, ?_⟩
  rw [List.eq_nil_of_length_eq_zero h0]; rfl

/-- An engine that holds a message holds one byte more after APPENDB's effect. -/
theorem holds_appendByte {e : Engine} {message : List Byte} (d : Byte) (h : e.Holds message)
    (hl : message.length < Config.maxLen) : (e.appendByte d).Holds (message ++ [d]) := by
  have a := absorbed_appendByte d (absorbed_of_holds h)
  refine ⟨by simp [h.phase], ?_, by simp; omega, a.hash, a.pending⟩
  rw [appendByte_len, fillPosition_succ (by rw [h.length]; exact hl), h.length]; simp

/-- FINALIZE's effect turns a held message into a finalized one. -/
theorem finalized_of_holds {e : Engine} {message : List Byte} (h : e.Holds message) : e.finalize.Finalized message :=
  ⟨rfl, by rw [finalize_len, h.length], h.fits, by rw [finalize_h (absorbed_of_holds h), h.length]; rfl⟩

/-! ## Runs of appends -/

/-- A run of APPENDB commands from an accepting engine with room for them. -/
theorem runAll_appendb (bytes : List Byte) : ∀ (s : State) (h0 : HashWords) (earlier : List Byte),
    s.engine.phase = .accepting → s.engine.len.toNat + bytes.length ≤ Config.maxLen → s.engine.Absorbed h0 earlier →
    ∃ t, runAll (bytes.map .appendb) s = .next t ∧ t.engine = bytes.foldl Engine.appendByte s.engine ∧
      t.engine.Absorbed h0 (earlier ++ bytes) ∧ t.engine.len.toNat = s.engine.len.toNat + bytes.length ∧
      t.engine.phase = .accepting := by
  induction bytes with
  | nil => intro s h0 earlier hp _ ha; exact ⟨s, rfl, rfl, by simpa using ha, rfl, hp⟩
  | cons b r ih =>
    intro s h0 earlier hp hl ha
    rw [List.length_cons] at hl
    have he : exec (.appendb b) s = .next (answered (.appendb b) s) :=
      exec_of_ok (violates_of_accepting hp (by simp)) (by rintro ⟨_, _, h⟩; omega)
    have hlen := fillPosition_succ (len := s.engine.len) (by omega)
    obtain ⟨t, h1, h2, h3, h4, h5⟩ := ih (answered (.appendb b) s) h0 (earlier ++ [b]) (by simp [effect, hp])
      (by simp only [answered_engine, effect, appendByte_len]; omega)
      (by simpa [effect] using absorbed_appendByte b ha)
    refine ⟨t, ?_, ?_, by simpa using h3, ?_, h5⟩
    · rw [List.map_cons, runAll_cons_next he, h1]
    · simp [h2, effect]
    · rw [h4]; simp only [answered_engine, effect, appendByte_len, List.length_cons]; omega

/-- The same of the pseudo-instruction, which is one APPENDZ where there is no byte. -/
theorem runAll_appendCommands (bytes : List Byte) (s : State) (h0 : HashWords) (earlier : List Byte)
    (hp : s.engine.phase = .accepting) (hl : s.engine.len.toNat + bytes.length ≤ Config.maxLen)
    (ha : s.engine.Absorbed h0 earlier) :
    ∃ t, runAll (appendCommands bytes) s = .next t ∧ t.engine = bytes.foldl Engine.appendByte s.engine ∧
      t.engine.Absorbed h0 (earlier ++ bytes) ∧ t.engine.len.toNat = s.engine.len.toNat + bytes.length ∧
      t.engine.phase = .accepting := by
  cases bytes with
  | nil =>
    have he : exec .appendz s = .next (answered .appendz s) :=
      exec_of_ok (violates_of_accepting hp (by simp)) (not_overLong (by simp))
    exact ⟨answered .appendz s, by rw [appendCommands, runAll_cons_next he]; rfl, by rfl, by simpa [effect] using ha,
      by rfl, hp⟩
  | cons b r => exact runAll_appendb (b :: r) s h0 earlier hp hl ha

/-- FINALIZE and DIGEST from an accepting engine. -/
theorem runAll_finish (s : State) (hp : s.engine.phase = .accepting) :
    ∃ t, runAll [Instr.finalize, Instr.digest] s = .next t ∧
      t.rsp = some ⟨.ok, digestBits s.engine.finalize.h⟩ := by
  have he : exec .finalize s = .next (answered .finalize s) :=
    exec_of_ok (violates_of_accepting hp (by simp)) (not_overLong (by simp))
  have hd : exec .digest (answered .finalize s) = .next (answered .digest (answered .finalize s)) :=
    exec_of_ok (by simp [effect, violates, requiredPhase]) (not_overLong (by simp))
  exact ⟨_, by rw [runAll_cons_next he, runAll_cons_next hd]; rfl, rfl⟩

/-! ## Stale bytes -/

/-- Differing in stale bytes only, by the pending bytes. -/
theorem sameButStale_iff (e e' : Engine) :
    e.SameButStale e' ↔ e.h = e'.h ∧ e.len = e'.len ∧ e.phase = e'.phase ∧
      (e.phase = .accepting → pendingBytes e = pendingBytes e') := by
  constructor
  · rintro ⟨h1, h2, h3, h4⟩
    exact ⟨h1, h2, h3, fun hp => pendingBytes_congr h2 (h4 hp)⟩
  · rintro ⟨h1, h2, h3, h4⟩
    refine ⟨h1, h2, h3, fun hp k hk => ?_⟩
    have a := pendingBytes_getElem? e k
    have b := pendingBytes_getElem? e' k
    rw [if_pos hk] at a
    rw [← h2, if_pos hk, ← h4 hp, a] at b
    exact Option.some.inj b

/-- A reset of either kind forgets all differences but stale ones. -/
theorem fresh_sameButStale (e e' : Engine) : e.fresh.SameButStale e'.fresh :=
  ⟨rfl, rfl, rfl, fun _ k hk => absurd hk (by simp [fillPosition])⟩

/-- No accepted command's effect depends on a stale byte. -/
theorem effect_sameButStale {i : Instr} {e e' : Engine} (h : e.SameButStale e') (hv : violates i e.phase = false) :
    (effect i e).SameButStale (effect i e') := by
  obtain ⟨h1, h2, h3, h4⟩ := (sameButStale_iff e e').mp h
  have same : e.phase = .accepting → e'.Absorbed e.h (pendingBytes e) := fun hp => by
    rw [h1, h4 hp]; exact absorbed_pending e'
  cases i with
  | reset => exact fresh_sameButStale e e'
  | appendz => exact h
  | digest => exact h
  | appendb d =>
    have hp : e.phase = .accepting := by cases hq : e.phase <;> simp_all [violates, requiredPhase]
    have a := absorbed_appendByte d (absorbed_pending e)
    have b := absorbed_appendByte d (same hp)
    exact (sameButStale_iff _ _).mpr ⟨a.hash.trans b.hash.symm, by simp [effect, h2], by simp [effect, h3],
      fun _ => a.pending.trans b.pending.symm⟩
  | finalize =>
    have hp : e.phase = .accepting := by cases hq : e.phase <;> simp_all [violates, requiredPhase]
    have a := finalize_h (absorbed_pending e)
    have b := finalize_h (same hp)
    exact (sameButStale_iff _ _).mpr ⟨by rw [effect, effect, a, b, h2], by simp [effect, h2], rfl,
      fun hf => by simp [effect] at hf⟩

end Sys2Proof.Machine
end

