-- ==== Sys2Proof/Tests/Slice0.lean ====
section
/-! SUPPORT. Tests of the model against the words and vectors of spec/, and a witness for the hypotheses of every
statement. -/

namespace Sys2Proof.Tests

open Sys2Proof.Machine

/-! ## Helpers -/

/-- The next state of an outcome. -/
def nextOf : Host.Outcome State Fault Refusal → Option State
  | .next t    => some t
  | .fault _   => none
  | .refused _ => none

/-- A machine with this length and phase, the initial vector, a clear buffer and these inputs. -/
def machine (len : Length) (phase : Phase) (inputs : List HostInput) : State :=
  { engine := { h := iv, buf := Vector.replicate 16 0#32, len := len, phase := phase },
    inputs := inputs, rsp := none, history := [], draws := 0 }

/-- The same with this buffer. -/
def machineWith (buf : Block) (len : Length) : State :=
  { engine := { h := iv, buf := buf, len := len, phase := .accepting }, inputs := [], rsp := none, history := [], draws := 0 }

/-- The buffer of 95_test_vectors.md V20 after its first two commands. -/
def staleBuffer : Block :=
  #v[0x6162b438#32, 0xf2a74de4#32, 0x269e0d37#32, 0x6513270e#32, 0xa6a3a450#32, 0x0c5c7fd0#32, 0x128b2f33#32, 0xd23f0824#32,
     0x892f902b#32, 0x1818e811#32, 0x5d9dc9f8#32, 0x9531985d#32, 0x0ed90475#32, 0xe8e25d94#32, 0x81e74ef5#32, 0x36f675cc#32]

/-- The buffer of bytes 1, 2, ..., 64 (95_test_vectors.md V17). -/
def countingBuffer : Block := blockAt ((List.range 64).map fun k => BitVec.ofNat 8 (k + 1)) 0

/-! ## Well-formedness: each check refuses a term -/

theorem test_wf_accepts : (⟨3, 1, 255⟩ : Fields).wf = true := by decide
theorem test_wf_refuses_op : (⟨4, 0, 0⟩ : Fields).wf = false := by decide
theorem test_wf_refuses_n : (⟨1, 2, 0⟩ : Fields).wf = false := by decide
theorem test_wf_refuses_data : (⟨1, 1, 256⟩ : Fields).wf = false := by decide
theorem test_assemble_refuses : assemble ⟨1, 1, 256⟩ = none := by decide
theorem test_assemble_appendb : assemble ⟨1, 1, 0x61⟩ = some 0x361#11 := by decide
theorem test_decode_refuses_twelve_bits : decodeNumber 0x800 = .error .notElevenBits := by rfl

/-! ## Decoding, the words written out from 30_encoding.md R64 -/

theorem test_decode_reset : decode 0b00000000000#11 = .reset := by decide
theorem test_decode_reset_ignored : decode 0b00111111111#11 = .reset := by decide
theorem test_decode_appendz : decode 0b01000000000#11 = .appendz := by decide
theorem test_decode_appendz_ignored : decode 0b01010100101#11 = .appendz := by decide
theorem test_decode_appendb : decode 0b01101100001#11 = .appendb 0x61#8 := by decide
theorem test_decode_appendb_asymmetric : decode 0b01110000001#11 = .appendb 0x81#8 := by decide
theorem test_decode_finalize : decode 0b10000000000#11 = .finalize := by decide
theorem test_decode_finalize_ignored : decode 0b10111111111#11 = .finalize := by decide
theorem test_decode_digest : decode 0b11000000000#11 = .digest := by decide
theorem test_decode_digest_ignored : decode 0b11111111111#11 = .digest := by decide
theorem test_decodeTableWord : decodeTableWord 16 0x361 = some (.appendb 0x61#8) := by decide
theorem test_script_text :
    (ScriptLine.appendText ['a', 'b', 'c']).words = [0x361#11, 0x362#11, 0x363#11] := by decide

/-! ## One step of each command, against the vectors of 95_test_vectors.md -/

/-- V20: the third byte of "abc", over stale bytes. -/
theorem test_appendb_lane :
    (nextOf (step ((machineWith staleBuffer 2#64).withFetchWord 16 0x363))).map (fun t => (t.engine.buf[0], t.engine.len)) =
      some (0x61626338#32, 3#64) := by decide

set_option maxRecDepth 100000 in
/-- P5: the byte that completes a block of sixty-four 0x61 compresses it. -/
theorem test_appendb_completes_block :
    (nextOf (step ((machineWith (memWrite8 (Vector.replicate 16 0x61616161#32) 63 0#8) 63#64).withFetchWord 16 0x361))).map
      (fun t => t.engine.h) =
      some #v[0xdf5bb81c#32, 0xe81e0626#32, 0xfb45a894#32, 0x4fd40f31#32,
              0xb25e6816#32, 0xd6d499c1#32, 0xab904929#32, 0x00635e66#32] := by decide

/-- V18: APPENDZ in FINALIZED. -/
theorem test_appendz_rejected :
    (nextOf (step ((machine 3#64 .finalized []).withFetchWord 16 0x200))).map (fun t => (t.engine.phase, t.rsp.map (·.status))) =
      some (.finalized, some .invalidState) := by decide

set_option maxRecDepth 100000 in
/-- V20: FINALIZE of "abc" over a stale byte. -/
theorem test_finalize_abc :
    (nextOf (step ((machineWith (staleBuffer.set 0 0x61626338#32) 3#64).withFetchWord 16 0x400))).map (fun t => t.engine) =
      some { h := #v[0xba7816bf#32, 0x8f01cfea#32, 0x414140de#32, 0x5dae2223#32,
                     0xb00361a3#32, 0x96177a9c#32, 0xb410ff61#32, 0xf20015ad#32],
             buf := #v[0x61626380#32, 0, 0, 0, 0, 0, 0, 0, 0, 0, 0, 0, 0, 0, 0, 0x00000018#32],
             len := 3#64, phase := .finalized } := by decide

set_option maxRecDepth 100000 in
/-- V17: FINALIZE at MAXLEN, two blocks. -/
theorem test_finalize_maxlen :
    (nextOf (step ((machineWith countingBuffer 0x1fffffffffffffff#64).withFetchWord 16 0x400))).map
      (fun t => (t.engine.h, t.engine.buf[13], t.engine.buf[14], t.engine.buf[15])) =
      some (#v[0x276b672d#32, 0x2a1355d9#32, 0xbcf7246a#32, 0x125738f2#32,
               0x6cb3ab12#32, 0x3f4df223#32, 0xf8bc73cf#32, 0x35da7253#32], 0#32, 0xffffffff#32, 0xfffffff8#32) := by decide

/-- 43_digest.md R110: the digest bus is the hash words in order. -/
theorem test_digest :
    (nextOf (step ((machine 0#64 .finalized []).withFetchWord 16 0x600))).map (fun t => t.rsp) =
      some (some ⟨.ok, 0x6a09e667bb67ae853c6ef372a54ff53a510e527f9b05688c1f83d9ab5be0cd19#256⟩) := by decide

/-- V18: DIGEST in ACCEPTING. -/
theorem test_digest_rejected :
    (nextOf (step ((machine 3#64 .accepting []).withFetchWord 16 0x600))).map (fun t => (t.engine, t.rsp.map (·.status))) =
      some ((machine 3#64 .accepting []).engine, some .invalidState) := by decide

/-- V18: RESET in FINALIZED. -/
theorem test_reset_from_finalized :
    (nextOf (step ((machine 3#64 .finalized []).withFetchWord 16 0x1ff))).map (fun t => (t.engine, t.rsp.map (·.status))) =
      some (Engine.resetWith (Vector.replicate 16 0#32), some .ok) := by decide

set_option maxRecDepth 100000 in
/-- 95_test_vectors.md V11: the schedule of the "abc" block, its last word. -/
theorem test_schedule_last :
    W #v[0x61626380#32, 0, 0, 0, 0, 0, 0, 0, 0, 0, 0, 0, 0, 0, 0, 0x00000018#32] 63 = 0x12b1edeb#32 := by decide

/-- V11: the working variables after round 1. -/
theorem test_two_rounds :
    workBefore iv #v[0x61626380#32, 0, 0, 0, 0, 0, 0, 0, 0, 0, 0, 0, 0, 0, 0, 0x00000018#32] 2 =
      ⟨0x5a6ad9ad#32, 0x5d6aebcd#32, 0x6a09e667#32, 0xbb67ae85#32, 0x78ce7989#32, 0xfa2a4622#32, 0x510e527f#32, 0x9b05688c#32⟩ := by
  decide

/-! ## Witnesses for the statements' hypotheses -/

theorem witness_HardwareReset_rst : (machine 5#64 .finalized [.rst]).inputs = .rst :: [] := by decide
theorem witness_HardwareReset_abandoned :
    (machine 5#64 .accepting [.abandoned 0x400#11, .idle]).inputs = .abandoned 0x400#11 :: [.idle] := by decide
theorem witness_ResetBehavesAsFresh :
    ∃ t, exec .reset (machine 5#64 .finalized []) = .next t := ⟨_, rfl⟩
theorem witness_StepRunsDecodedCommand :
    (machine 0#64 .accepting [.command 0x361#11]).inputs = .command 0x361#11 :: [] := by decide
theorem witness_IdleChangesNothing_empty : (machine 0#64 .accepting []).inputs = [] := by decide
theorem witness_IdleChangesNothing_idle : (machine 0#64 .accepting [.idle]).inputs = .idle :: [] := by decide
theorem witness_InputsTakenInOrder_command :
    ∃ t, step (machine 0#64 .accepting [.command 0x361#11]) = .next t := ⟨_, rfl⟩
theorem witness_InputsTakenInOrder_rst : ∃ t, step (machine 0#64 .accepting [.rst]) = .next t := ⟨_, rfl⟩
theorem witness_InputsTakenInOrder_abandoned :
    ∃ t, step (machine 0#64 .accepting [.abandoned 0x400#11]) = .next t := ⟨_, rfl⟩
theorem witness_InputsTakenInOrder_idle : ∃ t, step (machine 0#64 .accepting []) = .next t := ⟨_, rfl⟩
theorem witness_OpcodeMap_appendb : decode 0x3ff#11 = .appendb 0xff#8 := by decide
theorem witness_DecodeEncodeAgree : (Instr.appendb 0xff#8).wf = true := by decide
theorem witness_ScriptLineWords_ascii : ∀ c ∈ ['a', '~'], c.toNat < 128 := by simp
theorem witness_IgnoredBits_reset :
    opField 0x000#11 = opField 0x1ff#11 ∧ (opField 0x000#11 = 1#2 → nField 0x000#11 = nField 0x1ff#11 ∧
      (nField 0x000#11 = 1#1 → dataField 0x000#11 = dataField 0x1ff#11)) := by decide
theorem witness_IgnoredBits_appendz :
    opField 0x200#11 = opField 0x2a5#11 ∧ (opField 0x200#11 = 1#2 → nField 0x200#11 = nField 0x2a5#11 ∧
      (nField 0x200#11 = 1#1 → dataField 0x200#11 = dataField 0x2a5#11)) := by decide
theorem witness_MixedWidthViews_byte : (63 : BufAddr).val = 4 * (15 : Fin 16).val + (3 : Fin 4).val := by decide
theorem witness_MixedWidthViews_word :
    (60 : BufAddr).val = 4 * (15 : Fin 16).val ∧ (61 : BufAddr).val = 4 * (15 : Fin 16).val + 1 ∧
    (62 : BufAddr).val = 4 * (15 : Fin 16).val + 2 ∧ (63 : BufAddr).val = 4 * (15 : Fin 16).val + 3 := by decide
theorem witness_ScheduleRecurrence_first : 16 ≤ 16 ∧ 16 < 64 := by decide
theorem witness_ScheduleRecurrence_last : 16 ≤ 63 ∧ 63 < 64 := by decide
theorem witness_ScheduleRecurrence_abc :
    ∃ m : Block, m = #v[0x61626380#32, 0, 0, 0, 0, 0, 0, 0, 0, 0, 0, 0, 0, 0, 0, 0x00000018#32] := ⟨_, rfl⟩
theorem witness_bit_31 : 31 < 32 := by decide
theorem witness_RollingWindow_last_round : 63 < 64 := by decide
theorem witness_RotatedForm_all_rounds : 64 ≤ 64 := by decide

/-- The model's own schedule and rounds follow the pseudocode, so its hypotheses are met. -/
theorem witness_CompressFollowsPseudocode (h : HashWords) (m : Block) :
    (∀ i : Fin 16, W m i.val = m[i]) ∧
    (∀ t, 16 ≤ t → t < 64 → W m t = ssig1 (W m (t - 2)) + W m (t - 7) + ssig0 (W m (t - 15)) + W m (t - 16)) ∧
    workBefore h m 0 = { a := h[0], b := h[1], c := h[2], d := h[3], e := h[4], f := h[5], g := h[6], hh := h[7] } ∧
    (∀ t, t < 64 →
      (workBefore h m (t + 1)).hh = (workBefore h m t).g ∧ (workBefore h m (t + 1)).g = (workBefore h m t).f ∧
      (workBefore h m (t + 1)).f = (workBefore h m t).e ∧
      (workBefore h m (t + 1)).e = (workBefore h m t).d + ((workBefore h m t).hh + bsig1 (workBefore h m t).e +
        Ch (workBefore h m t).e (workBefore h m t).f (workBefore h m t).g + K t + W m t) ∧
      (workBefore h m (t + 1)).d = (workBefore h m t).c ∧ (workBefore h m (t + 1)).c = (workBefore h m t).b ∧
      (workBefore h m (t + 1)).b = (workBefore h m t).a ∧
      (workBefore h m (t + 1)).a = ((workBefore h m t).hh + bsig1 (workBefore h m t).e +
        Ch (workBefore h m t).e (workBefore h m t).f (workBefore h m t).g + K t + W m t) +
        (bsig0 (workBefore h m t).a + Maj (workBefore h m t).a (workBefore h m t).b (workBefore h m t).c)) :=
  ⟨W_of_block m, fun _ h1 h2 => W_recurrence m h1 h2, rfl, fun _ _ => ⟨rfl, rfl, rfl, rfl, rfl, rfl, rfl, rfl⟩⟩

theorem witness_AppendByte_last_byte :
    (machine 0x1ffffffffffffffe#64 .accepting []).engine.phase = .accepting ∧
    (machine 0x1ffffffffffffffe#64 .accepting []).engine.len.toNat < Config.maxLen := by decide
theorem witness_AppendByte_completes_block :
    (machine 63#64 .accepting []).engine.phase = .accepting ∧
    (machine 63#64 .accepting []).engine.len.toNat < Config.maxLen ∧
    (fillPosition (machine 63#64 .accepting []).engine.len).val = 63 := by decide
theorem witness_accepting : (machine 0#64 .accepting []).engine.phase = .accepting := by decide
theorem witness_finalized : (machine 3#64 .finalized []).engine.phase = .finalized := by decide
theorem witness_OverLengthAppendRefused :
    (machine 0x1fffffffffffffff#64 .accepting []).engine.phase = .accepting ∧
    (machine 0x1fffffffffffffff#64 .accepting []).engine.len.toNat = 2 ^ 61 - 1 := by decide
theorem witness_AppendClosedForm :
    (machine 0x1ffffffffffffffd#64 .accepting []).engine.phase = .accepting ∧
    (machine 0x1ffffffffffffffd#64 .accepting []).engine.len.toNat + [0x61#8, 0x62#8].length ≤ Config.maxLen := by decide
theorem witness_ChunkingDoesNotMatter :
    (machine 0x1ffffffffffffffd#64 .accepting []).engine.phase = .accepting ∧
    (machine 0x1ffffffffffffffd#64 .accepting []).engine.len.toNat + [[0x61#8], [], [0x62#8]].flatten.length ≤
      Config.maxLen := by decide
theorem witness_Finalize_below_56 : (fillPosition 55#64).val < 56 := by decide
theorem witness_Finalize_from_56 : 56 ≤ (fillPosition 56#64).val := by decide
theorem witness_Finalize_from_63 : 56 ≤ (fillPosition 63#64).val := by decide
theorem witness_FinalizeHashesHeldMessage : (machine 0#64 .accepting []).engine.Holds [] := holds_empty rfl rfl rfl
theorem witness_DigestByteOrder_first : (0 : Fin 32).val = 4 * (0 : Fin 8).val + (0 : Fin 4).val := by decide
theorem witness_DigestByteOrder_last : (31 : Fin 32).val = 4 * (7 : Fin 8).val + (3 : Fin 4).val := by decide
theorem witness_DigestRepeatable :
    (machine 3#64 .finalized []).engine.phase = .finalized ∧
    ∀ i ∈ [Instr.appendb 0x64#8, .appendz, .finalize, .digest], i ≠ .reset := by decide
theorem witness_InvalidState_raised :
    (machine 0#64 .accepting []).engine.phase = .accepting ∧ Instr.digest = .digest := by decide
theorem witness_InvalidState_not_raised : ∃ t, exec .finalize (machine 0#64 .accepting []) = .next t := ⟨_, rfl⟩
theorem witness_PhaseTransitions_command : ∃ t, exec .finalize (machine 63#64 .accepting []) = .next t := ⟨_, rfl⟩
theorem witness_PhaseTransitions_rst :
    ∃ t, step (machine 3#64 .finalized [.rst]) = .next t ∧ (machine 3#64 .finalized [.rst]).inputs = .rst :: [] :=
  ⟨_, rfl, rfl⟩
theorem witness_OneOutcome_refused :
    (∃ d, Instr.appendb 7#8 = .appendb d) ∧ (machine 0x1fffffffffffffff#64 .accepting []).engine.phase = .accepting ∧
    Config.maxLen ≤ (machine 0x1fffffffffffffff#64 .accepting []).engine.len.toNat := ⟨⟨_, rfl⟩, by decide, by decide⟩
theorem witness_OneOutcome_next :
    ¬ Config.maxLen ≤ (machine 0x1ffffffffffffffe#64 .accepting []).engine.len.toNat := by decide
theorem witness_WriteSets_appendb : ∃ t, exec (.appendb 7#8) (machine 0#64 .accepting []) = .next t := ⟨_, rfl⟩
theorem witness_WriteSets_digest : ∃ t, exec .digest (machine 3#64 .finalized []) = .next t := ⟨_, rfl⟩
theorem witness_OneResponsePerCommand : ∃ t, exec .digest (machine 0#64 .accepting []) = .next t := ⟨_, rfl⟩
theorem witness_ErrorFree_run :
    ∃ t, run [Instr.appendz, .digest].length ((machine 0#64 .accepting []).offer [.appendz, .digest]) = .next t := ⟨_, rfl⟩
theorem witness_StaleBytes :
    (machineWith staleBuffer 2#64).engine.SameButStale (machineWith (blockAt [0x61#8, 0x62#8] 0) 2#64).engine ∧
    (machineWith staleBuffer 2#64).inputs = (machineWith (blockAt [0x61#8, 0x62#8] 0) 2#64).inputs ∧
    (machineWith staleBuffer 2#64).engine ≠ (machineWith (blockAt [0x61#8, 0x62#8] 0) 2#64).engine :=
  ⟨⟨by decide, by decide, by decide, fun _ => by decide⟩, by decide, by decide⟩
theorem witness_StepKeepsAgreement :
    (machine 0#64 .accepting [.command 0x361#11]).Consistent ∧
    ∃ t, step (machine 0#64 .accepting [.command 0x361#11]) = .next t := ⟨.inl (holds_empty rfl rfl rfl), _, rfl⟩
theorem witness_StepKeepsSupportedLength :
    (machine 0x1ffffffffffffffe#64 .accepting [.command 0x361#11]).engine.Supported ∧
    ∃ t, step (machine 0x1ffffffffffffffe#64 .accepting [.command 0x361#11]) = .next t :=
  ⟨by unfold Engine.Supported; decide, _, rfl⟩
theorem witness_MachineComputesSha256 : [0x61#8, 0x62#8, 0x63#8].length ≤ Config.maxLen := by decide
theorem witness_CopiesHashTheirOwnMessages :
    (machine 0#64 .accepting []).engine.Holds [] ∧ (machine 0#64 .accepting [.idle]).engine = (machine 0#64 .accepting []).engine ∧
    ([] : List Byte).length + [0x63#8].length ≤ Config.maxLen ∧ ([] : List Byte).length + ([] : List Byte).length ≤ Config.maxLen :=
  ⟨holds_empty rfl rfl rfl, rfl, by decide, by decide⟩

end Sys2Proof.Tests
end

/-! # PROOFS: the family 10_state.md. What the engine's state is after reset, which commands write it, and what every
step keeps. -/

namespace Sys2Proof.Machine

/-! ## What an accepted command does to each field of the engine -/

/-- A command that is not rejected finds the phase it requires. -/
theorem phase_of_not_violates {i : Instr} {p q : Phase} (h : violates i p = false) (hq : requiredPhase i = some q) :
    p = q := by
  simpa [violates, hq] using h

/-- RESET needs no phase, so it is never the rejected command. -/
theorem ne_reset_of_violates {i : Instr} {p : Phase} (h : violates i p = true) : i ≠ .reset := by
  rintro rfl; simp [violates, requiredPhase] at h

theorem effect_len {i : Instr} (e : Engine) (hr : i ≠ .reset) (hb : ∀ d, i ≠ .appendb d) :
    (effect i e).len = e.len := by
  cases i with
  | reset => exact absurd rfl hr
  | appendb d => exact absurd rfl (hb d)
  | finalize => exact finalize_len e
  | appendz | digest => rfl

theorem effect_buf {i : Instr} (e : Engine) (hf : i ≠ .finalize) (hb : ∀ d, i ≠ .appendb d) :
    (effect i e).buf = e.buf := by
  cases i with
  | finalize => exact absurd rfl hf
  | appendb d => exact absurd rfl (hb d)
  | reset | appendz | digest => rfl

/-- `H` is written by RESET, FINALIZE and a byte that completes a block (10_state.md R20; 44_compression.md R130). -/
theorem effect_h {i : Instr} (e : Engine) (hr : i ≠ .reset) (hf : i ≠ .finalize)
    (hb : (∀ d, i ≠ .appendb d) ∨ (fillPosition e.len).val ≠ 63) : (effect i e).h = e.h := by
  cases i with
  | reset => exact absurd rfl hr
  | finalize => exact absurd rfl hf
  | appendb d =>
    have hne : fillPosition e.len ≠ 63 := fun hc => hb.elim (fun h => h d rfl) (fun h => h (congrArg Fin.val hc))
    rw [effect, appendByte_h, if_neg hne]
  | appendz | digest => rfl

theorem effect_phase {i : Instr} (e : Engine) (hr : i ≠ .reset) (hf : i ≠ .finalize) :
    (effect i e).phase = e.phase := by
  cases i with
  | reset => exact absurd rfl hr
  | finalize => exact absurd rfl hf
  | appendb d => exact appendByte_phase e d
  | appendz | digest => rfl

/-- A byte that is not refused is appended to a message that has room for it. -/
theorem len_lt_maxLen_of_not_overLong {d : Byte} {e : Engine} (hp : e.phase = .accepting)
    (ho : ¬ overLong (.appendb d) e) : e.len.toNat < Config.maxLen :=
  Nat.lt_of_not_le fun hl => ho ⟨⟨d, rfl⟩, hp, hl⟩

/-! ## The values at reset and the write sets -/

/-- Settles O1: both resets give the values of 10_state.md R35 by definition. -/
theorem resetValues : Obligations.ResetValues := by
  unfold Obligations.ResetValues
  exact ⟨fun _ => ⟨rfl, rfl, rfl, rfl, rfl⟩, ⟨Config.bufReset, rfl⟩,
    fun s => ⟨answered .reset s, _, rfl, rfl, rfl, rfl, rfl, rfl⟩⟩

/-- Settles O34: a rejected command leaves `PHASE` alone, and one that is accepted was in the phase it requires. -/
theorem phaseTransitions : Obligations.PhaseTransitions := by
  unfold Obligations.PhaseTransitions
  refine ⟨fun i s t h => ?_, fun s t rest hin h => ?_⟩
  · rcases exec_next h with ⟨hv, rfl⟩ | ⟨hv, _, rfl⟩
    · rw [respond_engine]
      rcases (violates_iff i _).mp hv with ⟨hp, rfl | ⟨d, rfl⟩ | rfl⟩ | ⟨hp, rfl⟩ <;> rw [hp]
    · rw [answered_engine]
      cases i with
      | reset => rfl
      | appendz => rw [phase_of_not_violates hv rfl]; exact phase_of_not_violates hv rfl
      | appendb d => rw [effect, appendByte_phase, phase_of_not_violates hv rfl]
      | finalize => rw [phase_of_not_violates hv rfl]; rfl
      | digest => rw [phase_of_not_violates hv rfl]; exact phase_of_not_violates hv rfl
  · rw [step_of_inputs hin] at h
    cases h
    rfl

/-- Settles O36: a rejected command writes nothing, and the effect of an accepted one leaves each field alone but where
it is named. -/
theorem writeSets : Obligations.WriteSets := by
  unfold Obligations.WriteSets
  intro i s t h
  rcases exec_next h with ⟨_, rfl⟩ | ⟨_, _, rfl⟩
  · exact ⟨fun _ _ => rfl, fun _ _ => rfl, fun _ _ _ => rfl, fun _ _ => rfl⟩
  · rw [answered_engine]
    exact ⟨effect_len _, effect_buf _, effect_h _, effect_phase _⟩

/-! ## `LEN` stays within `MAXLEN` -/

theorem supported_of_len_zero {e : Engine} (h : e.len = 0#64) : e.Supported := by
  simp [Engine.Supported, h]

theorem effect_supported {i : Instr} {e : Engine} (h : e.Supported) (hv : violates i e.phase = false)
    (ho : ¬ overLong i e) : (effect i e).Supported := by
  cases i with
  | reset => exact supported_of_len_zero rfl
  | appendb d =>
    have hl := len_lt_maxLen_of_not_overLong (phase_of_not_violates hv rfl) ho
    rw [Engine.Supported, effect, appendByte_len, fillPosition_succ hl]
    exact hl
  | finalize => rwa [Engine.Supported, effect, finalize_len]
  | appendz | digest => exact h

theorem exec_supported {i : Instr} {s t : State} (h : s.engine.Supported) (he : exec i s = .next t) :
    t.engine.Supported := by
  rcases exec_next he with ⟨_, rfl⟩ | ⟨hv, ho, rfl⟩
  · exact h
  · rw [answered_engine]; exact effect_supported h hv ho

/-- Settles O42: only an accepted APPENDB makes `LEN` larger, and it is refused at `MAXLEN`. -/
theorem stepKeepsSupportedLength : Obligations.StepKeepsSupportedLength := by
  unfold Obligations.StepKeepsSupportedLength
  refine ⟨fun b => supported_of_len_zero rfl, fun s t h hs => ?_⟩
  rcases step_next hs with ⟨w, _, he⟩ | ⟨_, rfl⟩ | ⟨_, rfl⟩
  · exact exec_supported (s := takeInput s) h he
  · exact supported_of_len_zero rfl
  · exact h

/-! ## Agreement with the message in the record -/

@[simp] theorem messageOf_append (history : List PortEvent) (e : PortEvent) :
    messageOf (history ++ [e]) = messageAfter (messageOf history) e := by
  simp [messageOf]

/-- A rejected command adds no byte to the message, and is no reset of it. -/
theorem messageAfter_rejected {i : Instr} (hi : i ≠ .reset) (message : List Byte) (d : DigestBits) :
    messageAfter message (.answered i ⟨.invalidState, d⟩) = message := by
  cases i with
  | reset => exact absurd rfl hi
  | appendz | appendb | finalize | digest => rfl

/-- The record's entry for a command that was not rejected; the digest is specified for DIGEST only. -/
@[simp] theorem answered_history (i : Instr) (s : State) :
    (answered i s).history = s.history ++
      [.answered i ⟨.ok, if i = .digest then digestBits s.engine.h else Config.freeDigest s.draws⟩] := by
  cases i <;> rfl

theorem fresh_agreesWith_nil (e : Engine) : e.fresh.AgreesWith [] := .inl (holds_empty rfl rfl rfl)

/-- An accepting engine that agrees with a message holds it. -/
theorem holds_of_agreesWith {e : Engine} {message : List Byte} (h : e.AgreesWith message) (hp : e.phase = .accepting) :
    e.Holds message := by
  rcases h with h | h
  · exact h
  · rw [h.phase] at hp; cases hp

/-- The effect of an accepted command agrees with the message its answer leaves in the record. -/
theorem effect_agreesWith {i : Instr} {e : Engine} {message : List Byte} (d : DigestBits) (h : e.AgreesWith message)
    (hv : violates i e.phase = false) (ho : ¬ overLong i e) :
    (effect i e).AgreesWith (messageAfter message (.answered i ⟨.ok, d⟩)) := by
  cases i with
  | reset => exact fresh_agreesWith_nil e
  | appendb b =>
    have hp : e.phase = .accepting := phase_of_not_violates hv rfl
    have hm := holds_of_agreesWith h hp
    exact .inl (holds_appendByte b hm (hm.length ▸ len_lt_maxLen_of_not_overLong hp ho))
  | finalize => exact .inr (finalized_of_holds (holds_of_agreesWith h (phase_of_not_violates hv rfl)))
  | appendz | digest => exact h

theorem exec_consistent {i : Instr} {s t : State} (h : s.Consistent) (he : exec i s = .next t) : t.Consistent := by
  rcases exec_next he with ⟨hv, rfl⟩ | ⟨hv, ho, rfl⟩
  · rw [State.Consistent, respond_history, messageOf_append, messageAfter_rejected (ne_reset_of_violates hv)]
    exact h
  · rw [State.Consistent, answered_engine, answered_history, messageOf_append]
    exact effect_agreesWith _ h hv ho

/-- Settles O40: at reset the record is empty and a fresh engine holds the empty message. -/
theorem agreementAtReset : Obligations.AgreementAtReset := by
  unfold Obligations.AgreementAtReset
  have key : ∀ b : Block, (State.resetWith b).Consistent := fun _ => .inl (holds_empty rfl rfl rfl)
  exact ⟨key, key Config.bufReset⟩

/-- Settles O41: a command keeps the agreement by its effect, a hardware reset empties both the engine and the message,
and an idle cycle changes neither. -/
theorem stepKeepsAgreement : Obligations.StepKeepsAgreement := by
  unfold Obligations.StepKeepsAgreement
  intro s t h hs
  rcases step_next hs with ⟨w, _, he⟩ | ⟨_, rfl⟩ | ⟨_, rfl⟩
  · exact exec_consistent (s := takeInput s) h he
  · rw [State.Consistent, hardwareReset_history, messageOf_append]
    exact fresh_agreesWith_nil _
  · exact h

/-! ## Stale bytes -/

/-- A step takes the first of the host's inputs. -/
theorem step_inputs {s t : State} (h : step s = .next t) : t.inputs = s.inputs.tail := by
  rcases step_next h with ⟨w, _, he⟩ | ⟨_, rfl⟩ | ⟨_, rfl⟩
  · exact exec_inputs he
  · rfl
  · rfl

/-- The host sees the digest field of an OK answer where the command is DIGEST. -/
@[simp] theorem observe_ok (i : Instr) (d : DigestBits) :
    observe (.answered i ⟨.ok, d⟩) = .answer i .ok (if i = .digest then some d else none) := by
  cases i <;> rfl

@[simp] theorem observe_invalidState (i : Instr) (d : DigestBits) :
    observe (.answered i ⟨.invalidState, d⟩) = .answer i .invalidState none := by
  cases i <;> rfl

section SameOutcome
variable {s s' t t' : State}

/-- Two runs of no step. -/
theorem sameOutcome_refl (h : s.engine.SameButStale s'.engine) : SameOutcome s s' (.next s) (.next s') :=
  ⟨h, [], [], by simp, by simp, rfl⟩

/-- Two runs that each added one event to the record. -/
theorem sameOutcome_of_event {e e' : PortEvent} (he : t.engine.SameButStale t'.engine)
    (h : t.history = s.history ++ [e]) (h' : t'.history = s'.history ++ [e']) (ho : observe e = observe e') :
    SameOutcome s s' (.next t) (.next t') :=
  ⟨he, [e], [e'], h, h', by simp [ho]⟩

/-- Two runs that end alike, continued by two that end alike. -/
theorem sameOutcome_trans {o o' : Host.Outcome State Fault Refusal} (h : SameOutcome s s' (.next t) (.next t'))
    (h' : SameOutcome t t' o o') : SameOutcome s s' o o' := by
  obtain ⟨_, es, es', hes, hes', hobs⟩ := h
  match o, o', h' with
  | .next u, .next u', ⟨hu, fs, fs', hfs, hfs', hobs'⟩ =>
    exact ⟨hu, es ++ fs, es' ++ fs', by simp [hfs, hes], by simp [hfs', hes'], by simp [hobs, hobs']⟩
  | .refused r, .refused r', hr => exact hr

/-- Two next states, or the same refusal: what ending alike gives to go on from. -/
theorem sameOutcome_cases {o o' : Host.Outcome State Fault Refusal} (h : SameOutcome s s' o o') :
    (∃ t t', o = .next t ∧ o' = .next t' ∧ t.engine.SameButStale t'.engine) ∨
    (∃ r, o = .refused r ∧ o' = .refused r) := by
  match o, o', h with
  | .next t, .next t', ⟨ht, _⟩ => exact .inl ⟨t, t', rfl, rfl, ht⟩
  | .refused r, .refused _, rfl => exact .inr ⟨r, rfl, rfl⟩

theorem overLong_iff_of_sameButStale (i : Instr) {e e' : Engine} (h : e.SameButStale e') :
    overLong i e ↔ overLong i e' := by
  obtain ⟨_, hlen, hphase, _⟩ := h
  rw [overLong, overLong, hlen, hphase]

/-- A command is rejected, answered or refused by `PHASE` and `LEN` alone, and its effect reads no stale byte. -/
theorem exec_sameOutcome (i : Instr) (h : s.engine.SameButStale s'.engine) :
    SameOutcome s s' (exec i s) (exec i s') := by
  have ⟨hh, _, hphase, _⟩ := h
  have hlong := overLong_iff_of_sameButStale i h
  rcases exec_cases i s with ⟨hv, he⟩ | ⟨hv, ho, he⟩ | ⟨_, ho, he⟩
  · rw [he, exec_of_violates (hphase ▸ hv)]
    exact sameOutcome_of_event h rfl rfl (by simp)
  · rw [he, exec_of_ok (hphase ▸ hv) (mt hlong.mpr ho)]
    exact sameOutcome_of_event (by simpa using effect_sameButStale h hv) (answered_history i s) (answered_history i s')
      (by cases i <;> simp [hh])
  · rw [he, exec_of_overLong (hlong.mp ho)]
    rfl

theorem serve_sameOutcome (x : HostInput) (h : s.engine.SameButStale s'.engine) :
    SameOutcome s s' (serve x s) (serve x s') := by
  cases x with
  | command w => exact exec_sameOutcome (decode w) h
  | rst | abandoned w => exact sameOutcome_of_event (fresh_sameButStale _ _) rfl rfl rfl
  | idle => exact sameOutcome_refl (s := idleCycle s) (s' := idleCycle s') h

theorem step_sameOutcome (h : s.engine.SameButStale s'.engine) (hin : s.inputs = s'.inputs) :
    SameOutcome s s' (step s) (step s') := by
  have hnext : nextInput s = nextInput s' := by rw [nextInput, nextInput, hin]
  rw [step, step, hnext]
  exact serve_sameOutcome (s := takeInput s) (s' := takeInput s') _ h

end SameOutcome

/-- Settles O39, by induction on the number of steps: related states step to related states, whose inputs are again the
same. -/
theorem staleBytesNeverObserved : Obligations.StaleBytesNeverObserved := by
  unfold Obligations.StaleBytesNeverObserved
  intro s s' n
  induction n generalizing s s' with
  | zero => exact fun h _ => sameOutcome_refl h
  | succ n ih =>
    intro h hin
    have hstep := step_sameOutcome h hin
    rw [run_succ, run_succ]
    rcases sameOutcome_cases hstep with ⟨t, t', ht, ht', hsame⟩ | ⟨r, hr, hr'⟩
    · rw [ht, ht'] at hstep ⊢
      exact sameOutcome_trans hstep (ih t t' hsame (by rw [step_inputs ht, step_inputs ht', hin]))
    · rw [hr, hr']
      rfl

/-! ## Copies -/

/-- A machine that holds a message, given more bytes and then FINALIZE and DIGEST, answers the digest of all of them. -/
theorem run_append_finish {s : State} {message : List Byte} (own : List Byte) (h : s.engine.Holds message)
    (hl : message.length + own.length ≤ Config.maxLen) :
    ∃ t, run (appendCommands own ++ [Instr.finalize, Instr.digest]).length
        (s.offer (appendCommands own ++ [Instr.finalize, Instr.digest])) = .next t ∧
      t.rsp = some ⟨.ok, sha256 (message ++ own)⟩ := by
  obtain ⟨t, hrun, _, habs, hlen, hphase⟩ :=
    runAll_appendCommands own s iv message h.phase (by rw [h.length]; exact hl) (absorbed_of_holds h)
  have hm : t.engine.Holds (message ++ own) :=
    ⟨hphase, by rw [hlen, h.length, List.length_append], by rwa [List.length_append], habs.hash, habs.pending⟩
  obtain ⟨u, hfin, hrsp⟩ := runAll_finish t hphase
  refine ⟨u, ?_, ?_⟩
  · rw [run_offer, runAll_append_next hrun, hfin]
  · rw [hrsp, (finalized_of_holds hm).digest]

/-- Settles O44: the copy's engine equals the original's, so it holds the same message, and each run is that of one
machine. -/
theorem copiesHashTheirOwnMessages : Obligations.CopiesHashTheirOwnMessages := by
  unfold Obligations.CopiesHashTheirOwnMessages
  intro s s' common own own' h heq hl hl'
  obtain ⟨t, hrun, hrsp⟩ := run_append_finish own h hl
  obtain ⟨t', hrun', hrsp'⟩ := run_append_finish (s := s') own' (by rwa [heq]) hl'
  exact ⟨t, t', hrun, hrun', hrsp, hrsp'⟩

end Sys2Proof.Machine

/-! # PROOFS: the family 20_memory.md. The block buffer as bytes and as words, and the order in which the host's inputs
are taken. -/

namespace Sys2Proof.Machine

/-! ## The buffer's two views -/

/-- A word read after a word write (20_memory.md R42). -/
theorem memRead32_memWrite32 (b : Block) (i i' : Fin 16) (v : Word) :
    memRead32 (memWrite32 b i v) i' = if i' = i then v else memRead32 b i' := by
  rw [memRead32, memWrite32, vector_set_get]
  simp only [memRead32, eq_comm (a := i)]

/-- A byte is its lane of the word it lies in (20_memory.md R41). -/
theorem memRead8_eq_lane (b : Block) (k : BufAddr) :
    memRead8 b k = (memRead32 b (wordIndex k)).extractLsb' (24 - 8 * (k.val % 4)) 8 := rfl

/-- The address of a byte, by its word and its place in it (20_memory.md R40). -/
theorem eq_byteAddr {k : BufAddr} {i : Fin 16} {j : Fin 4} (h : k.val = 4 * i.val + j.val) : k = byteAddr i j :=
  Fin.ext h

/-- Settles O13: a write to the same address is read back, and one to another address is not seen. -/
theorem writeThenRead : Obligations.WriteThenRead := by
  unfold Obligations.WriteThenRead
  exact ⟨memRead8_memWrite8, memRead32_memWrite32⟩

/-- Settles O14: a byte read is a lane of the word read, so each write law gives the other view of what was written. -/
theorem mixedWidthViews : Obligations.MixedWidthViews := by
  unfold Obligations.MixedWidthViews
  refine ⟨fun b k v => ?_, fun b i j k v hk => ?_, fun b i k0 k1 k2 k3 h0 h1 h2 h3 => ?_⟩
  · rw [← memRead8_eq_lane, memRead8_memWrite8_same]
  · have hword : memRead32 (memWrite32 b i v) i = v := by rw [memRead32_memWrite32, if_pos rfl]
    rw [eq_byteAddr hk, memRead8_byteAddr, ← memRead32, hword]
  · rw [eq_byteAddr (j := 0) h0, eq_byteAddr (j := 1) h1, eq_byteAddr (j := 2) h2, eq_byteAddr (j := 3) h3]
    exact memRead32_eq_bytes b i

/-! ## Inputs in order, and a record that only grows -/

/-- An accepted command draws a free digest value unless it is DIGEST, whose answer is specified (30_encoding.md R70). -/
@[simp] theorem answered_draws (i : Instr) (s : State) :
    (answered i s).draws = if i = .digest then s.draws else s.draws + 1 := by
  cases i <;> rfl

/-- A command adds its one answer to the record. -/
theorem exec_history {i : Instr} {s t : State} (h : exec i s = .next t) :
    ∃ r, t.history = s.history ++ [.answered i r] := by
  rcases exec_next h with ⟨_, rfl⟩ | ⟨_, _, rfl⟩
  · exact ⟨_, respond_history i .invalidState s⟩
  · exact ⟨_, answered_history i s⟩

theorem exec_draws_le {i : Instr} {s t : State} (h : exec i s = .next t) : s.draws ≤ t.draws := by
  rcases exec_next h with ⟨_, rfl⟩ | ⟨_, _, rfl⟩
  · exact Nat.le_succ _
  · rw [answered_draws]; split <;> omega

theorem step_draws_le {s t : State} (h : step s = .next t) : s.draws ≤ t.draws := by
  rcases step_next h with ⟨w, _, he⟩ | ⟨_, rfl⟩ | ⟨_, rfl⟩
  · exact exec_draws_le (s := takeInput s) he
  · exact Nat.le_refl _
  · exact Nat.le_refl _

/-- The next input being a command word, the step executes what it decodes to. -/
theorem step_of_command {s : State} {w : CmdWord} {rest : List HostInput} (h : s.inputs = .command w :: rest) :
    step s = exec (decode w) { s with inputs := rest } := step_of_inputs h

/-- `rst` on its own, or rising over a command, is a hardware reset (70_reset_and_hazards.md R165, R166). -/
theorem step_of_reset {s : State}
    (h : (∃ rest, s.inputs = .rst :: rest) ∨ (∃ w rest, s.inputs = .abandoned w :: rest)) :
    step s = .next (hardwareReset (takeInput s)) := by
  rcases h with ⟨rest, h⟩ | ⟨w, rest, h⟩ <;> simp [step, nextInput, h, serve]

/-- With an idle input, or none left, the step is an idle cycle (30_encoding.md R61; 70_reset_and_hazards.md R178). -/
theorem step_of_idle {s : State} (h : s.inputs = [] ∨ ∃ rest, s.inputs = .idle :: rest) :
    step s = .next (idleCycle (takeInput s)) := by
  rcases h with h | ⟨rest, h⟩ <;> simp [step, nextInput, h, serve]

/-- Settles O7: the input taken is served as a command, a hardware reset or an idle cycle, and each adds to the record
what it is. -/
theorem inputsTakenInOrder : Obligations.InputsTakenInOrder := by
  unfold Obligations.InputsTakenInOrder
  intro s t h
  refine ⟨step_inputs h, step_draws_le h, ?_, fun hreset => ?_, fun hidle => ?_⟩
  · rintro ⟨w, rest, hin⟩
    rw [step_of_command hin] at h
    exact ⟨decode w, exec_history (s := { s with inputs := rest }) h⟩
  · cases h.symm.trans (step_of_reset hreset)
    exact ⟨rfl, rfl⟩
  · cases h.symm.trans (step_of_idle hidle)
    exact ⟨rfl, rfl⟩

/-- Settles O5: the word is taken from the head of the inputs, decoded and executed. -/
theorem stepRunsDecodedCommand : Obligations.StepRunsDecodedCommand := by
  unfold Obligations.StepRunsDecodedCommand
  exact fun _ _ _ h => step_of_command h

end Sys2Proof.Machine

/-! # PROOFS: the family 30_encoding.md. Commands and their words, what a command word depends on, the opcode map, the
words of a script line, and the one answer a command gets. -/

namespace Sys2Proof.Machine

/-! ## The fields of a word (30_encoding.md R62, R63) -/

section Fields
variable (op op' : BitVec 2) (n n' : BitVec 1) (d d' : Byte) (w : CmdWord)

@[simp] theorem opField_cmdWord : opField (cmdWord op n d) = op := by
  rw [opField, cmdWord, BitVec.append_assoc, BitVec.cast_eq, BitVec.extractLsb'_append_eq_left]

@[simp] theorem nField_cmdWord : nField (cmdWord op n d) = n := by
  rw [nField, cmdWord, BitVec.extractLsb'_append_eq_of_le (by decide), BitVec.extractLsb'_append_eq_right]

@[simp] theorem dataField_cmdWord : dataField (cmdWord op n d) = d := by
  rw [dataField, cmdWord, BitVec.extractLsb'_append_eq_right]

/-- A word is its three fields. -/
theorem cmdWord_fields : cmdWord (opField w) (nField w) (dataField w) = w := by
  have hhigh : opField w ++ nField w = w.extractLsb' 8 3 := BitVec.extractLsb'_append_extractLsb'_eq_extractLsb' rfl
  have hword : w.extractLsb' 8 3 ++ dataField w = w.extractLsb' 0 11 :=
    BitVec.extractLsb'_append_extractLsb'_eq_extractLsb' rfl
  rw [cmdWord, hhigh, hword, BitVec.extractLsb'_eq_self]

theorem cmdWord_inj : cmdWord op n d = cmdWord op' n' d' ↔ op = op' ∧ n = n' ∧ d = d' := by
  constructor
  · intro h
    exact ⟨by simpa using congrArg opField h, by simpa using congrArg nField h, by simpa using congrArg dataField h⟩
  · rintro ⟨rfl, rfl, rfl⟩
    rfl

theorem cmdWord_and : cmdWord op n d &&& cmdWord op' n' d' = cmdWord (op &&& op') (n &&& n') (d &&& d') :=
  BitVec.and_append.trans (congrArg (· ++ (d &&& d')) BitVec.and_append)

/-- The mask of the commands that read `op` alone. -/
theorem and_opMask : w &&& 0x600#11 = cmdWord (opField w) 0#1 0#8 := by
  have hmask : 0x600#11 = cmdWord (BitVec.allOnes 2) 0#1 0#8 := by decide
  rw [hmask, ← cmdWord_fields w, cmdWord_and, BitVec.and_allOnes]
  simp

/-- The mask of the commands that read `op` and `n`. -/
theorem and_opNMask : w &&& 0x700#11 = cmdWord (opField w) (nField w) 0#8 := by
  have hmask : 0x700#11 = cmdWord (BitVec.allOnes 2) (BitVec.allOnes 1) 0#8 := by decide
  rw [hmask, ← cmdWord_fields w, cmdWord_and, BitVec.and_allOnes, BitVec.and_allOnes]
  simp

/-- The mask of a command that reads the whole word. -/
theorem and_wordMask : w &&& 0x7FF#11 = w := BitVec.and_allOnes

end Fields

/-! ## Which words decode to a command (30_encoding.md R64, R65) -/

/-- What a command fixes of its words: `op`, for the appends `n`, and for APPENDB the data. -/
def FixedFields : Instr → CmdWord → Prop
  | .reset,     w => opField w = 0#2
  | .appendz,   w => opField w = 1#2 ∧ nField w = 0#1
  | .appendb d, w => opField w = 1#2 ∧ nField w = 1#1 ∧ dataField w = d
  | .finalize,  w => opField w = 2#2
  | .digest,    w => opField w = 3#2

theorem two_bits_cases : ∀ x : BitVec 2, x = 0#2 ∨ x = 1#2 ∨ x = 2#2 ∨ x = 3#2 := by decide

theorem one_bit_cases : ∀ x : BitVec 1, x = 0#1 ∨ x = 1#1 := by decide

/-- Everything a word can be. -/
theorem decode_cases (w : CmdWord) :
    (opField w = 0#2 ∧ decode w = .reset) ∨
    (opField w = 1#2 ∧ nField w = 0#1 ∧ decode w = .appendz) ∨
    (opField w = 1#2 ∧ nField w = 1#1 ∧ decode w = .appendb (dataField w)) ∨
    (opField w = 2#2 ∧ decode w = .finalize) ∨
    (opField w = 3#2 ∧ decode w = .digest) := by
  rcases two_bits_cases (opField w) with hop | hop | hop | hop
  case inr.inl => rcases one_bit_cases (nField w) with hn | hn <;> simp [decode, hop, hn]
  all_goals simp [decode, hop]

theorem decode_eq_iff (w : CmdWord) (i : Instr) : decode w = i ↔ FixedFields i w := by
  rcases decode_cases w with ⟨hop, h⟩ | ⟨hop, hn, h⟩ | ⟨hop, hn, h⟩ | ⟨hop, h⟩ | ⟨hop, h⟩ <;> rw [h] <;>
    cases i <;> simp [FixedFields, *]

/-- A word's used bits are those of a command's canonical word exactly when the word has what the command fixes. -/
theorem and_usedBits_eq_encode_iff (w : CmdWord) (i : Instr) : w &&& usedBits i = encode i ↔ FixedFields i w := by
  cases i with
  | reset | finalize | digest => simp [usedBits, encode, FixedFields, and_opMask, cmdWord_inj]
  | appendz => simp [usedBits, encode, FixedFields, and_opNMask, cmdWord_inj]
  | appendb d =>
    rw [usedBits, and_wordMask, ← cmdWord_fields w, encode, cmdWord_inj, FixedFields, cmdWord_fields]

theorem decodeTableWord_toNat (nbits : Nat) (w : CmdWord) : decodeTableWord nbits w.toNat = some (decode w) := by
  rw [decodeTableWord, decodeNumber, if_pos w.isLt, BitVec.ofNat_toNat, BitVec.setWidth_eq]

/-- A step reads an offered command word through the decoder only. -/
theorem step_offerWord (w : CmdWord) (s : State) : step (offerWord w s) = exec (decode w) s := rfl

/-- The machine runs the command whose canonical word is placed where it takes its next input (log entry 4). -/
theorem step_withFetchWord_encode (s : State) (nbits : Nat) (i : Instr) :
    step (s.withFetchWord nbits (encode i).toNat) = exec i s := by
  rw [State.withFetchWord, BitVec.ofNat_toNat, BitVec.setWidth_eq, step_offerWord, decode_encode]

/-- Settles O10: the words of a command are those that have what it fixes, by the decoder and by its used bits alike. -/
theorem decodeEncodeAgree : Obligations.DecodeEncodeAgree := by
  unfold Obligations.DecodeEncodeAgree
  intro i _
  refine ⟨decode_encode i, ?_, fun w => ?_, fun s => step_withFetchWord_encode s 16 i⟩
  · rw [decodeTableWord_toNat, decode_encode]
  · rw [decode_eq_iff, and_usedBits_eq_encode_iff]

/-- Words with the same bits where their command reads them decode alike (30_encoding.md R65). -/
theorem decode_eq_of_same_used_fields {w w' : CmdWord} (hop : opField w = opField w')
    (happend : opField w = 1#2 → nField w = nField w' ∧ (nField w = 1#1 → dataField w = dataField w')) :
    decode w = decode w' := by
  rw [decode_eq_iff]
  rcases decode_cases w' with ⟨hop', h⟩ | ⟨hop', hn', h⟩ | ⟨hop', hn', h⟩ | ⟨hop', h⟩ | ⟨hop', h⟩ <;> rw [h]
  case inr.inl =>
    obtain ⟨hn, _⟩ := happend (hop.trans hop')
    exact ⟨hop.trans hop', hn.trans hn'⟩
  case inr.inr.inl =>
    obtain ⟨hn, hdata⟩ := happend (hop.trans hop')
    exact ⟨hop.trans hop', hn.trans hn', hdata (hn.trans hn')⟩
  all_goals exact hop.trans hop'

/-- Settles O11: the two words decode to one command, and a step sees no more of them. -/
theorem ignoredBitsHaveNoEffect : Obligations.IgnoredBitsHaveNoEffect := by
  unfold Obligations.IgnoredBitsHaveNoEffect
  intro w w' s hop happend
  rw [← offerWord, ← offerWord, step_offerWord, step_offerWord, decode_eq_of_same_used_fields hop happend]

/-! ## The opcode map (30_encoding.md R64) -/

/-- The row of the opcode map a command belongs to: its used bits and canonical word, but that APPENDB's row leaves the
data open. -/
def opcodeRow : Instr → OpcodeRow
  | .appendb _ => ⟨"APPENDB", 0x700#11, 0x300#11⟩
  | i          => ⟨i.mnemonic, usedBits i, encode i⟩

@[simp] theorem opcodeRow_mnemonic (i : Instr) : (opcodeRow i).mnemonic = i.mnemonic := by cases i <;> rfl

theorem mem_opcodeTable_iff (r : OpcodeRow) : r ∈ opcodeTable ↔ ∃ i, r = opcodeRow i := by
  constructor
  · intro h
    simp only [opcodeTable, List.mem_cons, List.not_mem_nil, or_false] at h
    rcases h with rfl | rfl | rfl | rfl | rfl
    · exact ⟨.reset, rfl⟩
    · exact ⟨.appendz, rfl⟩
    · exact ⟨.appendb 0#8, rfl⟩
    · exact ⟨.finalize, rfl⟩
    · exact ⟨.digest, rfl⟩
  · rintro ⟨i, rfl⟩
    cases i <;> simp [opcodeTable, opcodeRow, Instr.mnemonic, usedBits, encode, cmdWord]

/-- A word selects a command's row exactly when it decodes to a command of that row. Where the row is of one command,
its mask and pattern are that command's used bits and canonical word. -/
theorem opcodeRow_selects_iff (i : Instr) (w : CmdWord) :
    (opcodeRow i).selects w = true ↔ opcodeRow (decode w) = opcodeRow i := by
  rw [OpcodeRow.selects, decide_eq_true_iff]
  cases i with
  | reset | appendz | finalize | digest =>
    refine ((and_usedBits_eq_encode_iff w _).trans (decode_eq_iff w _).symm).trans ?_
    cases decode w <;> simp [opcodeRow, Instr.mnemonic]
  | appendb d =>
    have hpattern : 0x300#11 = cmdWord 1#2 1#1 0#8 := by decide
    rw [opcodeRow, and_opNMask, hpattern, cmdWord_inj]
    rcases decode_cases w with ⟨hop, h⟩ | ⟨hop, hn, h⟩ | ⟨hop, hn, h⟩ | ⟨hop, h⟩ | ⟨hop, h⟩ <;> rw [h] <;>
      simp [opcodeRow, Instr.mnemonic, *]

theorem encode_appendb (d : Byte) : encode (.appendb d) = 0x300#11 + d.setWidth 11 := by
  have key : ∀ d : Byte, encode (.appendb d) = 0x300#11 + d.setWidth 11 := by decide
  exact key d

/-- Settles O9: the rows are those of the commands, and a word selects the row of what it decodes to and no other. -/
theorem opcodeMapCoversEveryWord : Obligations.OpcodeMapCoversEveryWord := by
  unfold Obligations.OpcodeMapCoversEveryWord
  refine ⟨fun w => ⟨opcodeRow (decode w), ?_, ?_, ?_, fun r' hr' hsel => ?_⟩, fun w d h => ?_,
    by decide, by decide, encode_appendb, by decide, by decide⟩
  · exact (mem_opcodeTable_iff _).mpr ⟨_, rfl⟩
  · exact (opcodeRow_selects_iff _ w).mpr rfl
  · exact opcodeRow_mnemonic _
  · obtain ⟨i, rfl⟩ := (mem_opcodeTable_iff r').mp hr'
    exact ((opcodeRow_selects_iff i w).mp hsel).symm
  · obtain ⟨_, _, hdata⟩ := (decode_eq_iff w (.appendb d)).mp h
    rw [← hdata, dataField, BitVec.setWidth_eq_extractLsb' (by decide)]

/-- Settles O8: each word is evaluated. -/
theorem decodeSampleWords : Obligations.DecodeSampleWords := by
  unfold Obligations.DecodeSampleWords
  decide

/-! ## Script lines (30_encoding.md R71, R72) -/

theorem appendCommands_cons (b : Byte) (bs : List Byte) : appendCommands (b :: bs) = (b :: bs).map .appendb := rfl

/-- An append has one beat a byte, and one where there is no byte. -/
theorem appendCommands_length (bytes : List Byte) : (appendCommands bytes).length = max bytes.length 1 := by
  cases bytes with
  | nil => rfl
  | cons b bs => simp [appendCommands_cons]

theorem eq_append_of_mem_appendCommands {i : Instr} {bytes : List Byte} (h : i ∈ appendCommands bytes) :
    i = .appendz ∨ ∃ d, i = .appendb d := by
  cases bytes with
  | nil => exact .inl (by simpa [appendCommands] using h)
  | cons b bs =>
    obtain ⟨d, _, rfl⟩ := List.mem_map.mp h
    exact .inr ⟨d, rfl⟩

theorem append_cons_words (b : Byte) (bs : List Byte) :
    (ScriptLine.append (b :: bs)).words = (b :: bs).map fun d => 0x300#11 + d.setWidth 11 := by
  rw [ScriptLine.words, ScriptLine.commands, appendCommands_cons, List.map_map]
  exact List.map_congr_left fun d _ => encode_appendb d

theorem textBytes_toNat_of_ascii {text : List Char} (h : ∀ c ∈ text, c.toNat < 128) :
    (textBytes text).map BitVec.toNat = text.map Char.toNat := by
  rw [textBytes, List.map_map]
  refine List.map_congr_left fun c hc => ?_
  have hfits : c.toNat < 2 ^ 8 := (h c hc).trans (by decide)
  rw [Function.comp_apply, BitVec.toNat_ofNat, Nat.mod_eq_of_lt hfits]

/-- Settles O12: a line's words are the canonical words of its commands. -/
theorem scriptLineWords : Obligations.ScriptLineWords := by
  unfold Obligations.ScriptLineWords
  refine ⟨by decide, by decide, by decide, by decide, fun d => ?_, by decide, append_cons_words, fun _ => rfl,
    fun _ => textBytes_toNat_of_ascii⟩
  exact congrArg (fun w => [w]) (encode_appendb d)

/-! ## Answers: one per command, none in an idle cycle (30_encoding.md R61, R68, R70) -/

@[simp] theorem answered_rsp (i : Instr) (s : State) :
    (answered i s).rsp =
      some ⟨.ok, if i = .digest then digestBits s.engine.h else Config.freeDigest s.draws⟩ := by
  cases i <;> rfl

/-- Settles O37: a rejected command answers InvalidState with a free digest field, an accepted one OK, the digest field
being free for every command but DIGEST. -/
theorem oneResponsePerCommand : Obligations.OneResponsePerCommand := by
  unfold Obligations.OneResponsePerCommand
  intro i s t h
  refine ⟨exec_inputs h, ?_⟩
  rcases exec_next h with ⟨_, rfl⟩ | ⟨_, _, rfl⟩
  · exact ⟨_, respond_rsp i .invalidState s, respond_history i .invalidState s, by simp⟩
  · exact ⟨_, answered_rsp i s, answered_history i s, by simp⟩

/-- Settles O6: the step is an idle cycle, which clears the response port. -/
theorem idleChangesNothing : Obligations.IdleChangesNothing := by
  unfold Obligations.IdleChangesNothing
  exact fun _ h => step_of_idle h

/-- Commands that all violate their precondition leave the engine as it is and are each answered with InvalidState
(60_exceptions.md R141). -/
theorem runAll_of_violates (is : List Instr) : ∀ s : State, (∀ i ∈ is, violates i s.engine.phase = true) →
    ∃ t es, runAll is s = .next t ∧ t.engine = s.engine ∧ t.history = s.history ++ es ∧ es.length = is.length ∧
      ∀ e ∈ es, ∃ i d, e = .answered i ⟨.invalidState, d⟩ := by
  induction is with
  | nil => exact fun s _ => ⟨s, [], rfl, rfl, by simp, rfl, by simp⟩
  | cons i is ih =>
    intro s h
    obtain ⟨hi, his⟩ := List.forall_mem_cons.mp h
    obtain ⟨t, es, hrun, hengine, hhistory, hlength, hes⟩ := ih (respond i .invalidState s) his
    refine ⟨t, .answered i ⟨.invalidState, Config.freeDigest s.draws⟩ :: es, ?_, hengine, ?_, ?_, ?_⟩
    · rw [runAll_cons_next (exec_of_violates hi), hrun]
    · simp [hhistory]
    · simp [hlength]
    · exact List.forall_mem_cons.mpr ⟨⟨i, _, rfl⟩, hes⟩

/-- Settles O27: in FINALIZED every beat of an append violates its precondition. -/
theorem appendRejectedPerBeat : Obligations.AppendRejectedPerBeat := by
  unfold Obligations.AppendRejectedPerBeat
  intro s bytes hp
  have hviolates : ∀ i ∈ appendCommands bytes, violates i s.engine.phase = true := fun i hi => by
    rcases eq_append_of_mem_appendCommands hi with rfl | ⟨d, rfl⟩ <;> rw [hp] <;> rfl
  obtain ⟨t, es, hrun, hengine, hhistory, hlength, hes⟩ := runAll_of_violates _ s hviolates
  exact ⟨t, es, (run_offer _ s).trans hrun, hengine, hhistory, hlength.trans (appendCommands_length bytes), hes⟩

end Sys2Proof.Machine

/-! # PROOFS: the family 40_reset.md. The RESET command, and the engine it leaves against a freshly constructed one. -/

namespace Sys2Proof.Machine

/-- RESET is valid in every phase and never refused (40_reset.md R80). -/
theorem exec_reset (s : State) : exec .reset s = .next (answered .reset s) :=
  exec_of_ok rfl (not_overLong fun _ => Instr.noConfusion)

/-- What a hardware reset leaves, whatever the buffer holds, is a fresh engine (10_state.md R35). -/
theorem fresh_resetWith (b : Block) : (Engine.resetWith b).fresh = Engine.resetWith b := rfl

/-- The engine after RESET differs from a freshly constructed one at most in its buffer, all of which is stale
(10_state.md R33; 40_reset.md R80). -/
theorem reset_sameButStale_resetWith {s t : State} (h : exec .reset s = .next t) (b : Block) :
    t.engine.SameButStale (State.resetWith b).engine := by
  rw [exec_reset] at h
  cases h
  rw [answered_engine, State.resetWith, ← fresh_resetWith b]
  exact fresh_sameButStale s.engine _

/-- Settles O4: the two engines differ in stale bytes only, and no run on the same inputs observes those (O39). -/
theorem resetBehavesAsFresh : Obligations.ResetBehavesAsFresh := by
  unfold Obligations.ResetBehavesAsFresh
  intro s t b xs n h
  exact staleBytesNeverObserved { t with inputs := xs } { State.resetWith b with inputs := xs } n
    (reset_sameButStale_resetWith h b) rfl

/-- Settles O3: RESET is answered OK, and its effect is the fresh engine. -/
theorem resetCommandEffect : Obligations.ResetCommandEffect := by
  unfold Obligations.ResetCommandEffect
  exact fun s => ⟨answered .reset s, _, exec_reset s, answered_engine .reset s, answered_rsp .reset s⟩

end Sys2Proof.Machine

/-! # PROOFS: the family 41_append.md. One command of an append in either phase, and any number of appends as one fold over
the bytes. -/

namespace Sys2Proof.Machine

/-! ## One command of an append (41_append.md R86, R87) -/

/-- In FINALIZED a command that requires ACCEPTING is rejected. -/
theorem exec_of_finalized {i : Instr} {s : State} (hi : requiredPhase i = some .accepting)
    (hp : s.engine.phase = .finalized) : exec i s = .next (respond i .invalidState s) :=
  exec_of_violates (by simp [violates, hi, hp])

theorem exec_appendz_of_accepting {s : State} (hp : s.engine.phase = .accepting) :
    exec .appendz s = .next (answered .appendz s) :=
  exec_of_ok (violates_of_accepting hp Instr.noConfusion) (not_overLong fun _ => Instr.noConfusion)

/-- In ACCEPTING a byte for which the message has room is appended. -/
theorem exec_appendb_of_room {s : State} (d : Byte) (hp : s.engine.phase = .accepting)
    (hl : s.engine.len.toNat < Config.maxLen) : exec (.appendb d) s = .next (answered (.appendb d) s) :=
  exec_of_ok (violates_of_accepting hp Instr.noConfusion) fun ⟨_, _, hmax⟩ => Nat.not_le.mpr hl hmax

/-- What one appended byte does to `H`, by the number of the fill position and the buffer it leaves. -/
theorem appendByte_h_eq (e : Engine) (d : Byte) :
    (e.appendByte d).h = if (fillPosition e.len).val = 63 then compress e.h (e.appendByte d).buf else e.h := by
  rw [appendByte_h, appendByte_buf]
  exact if_congr Fin.ext_iff rfl rfl

/-! ## Several appends, one after the other (41_append.md R88, R89) -/

/-- A run of appends, empty ones among them, appends their bytes one by one: how the bytes are split is not in the result. -/
theorem runAll_flatMap_appendCommands (chunks : List (List Byte)) : ∀ s : State, s.engine.phase = .accepting →
    s.engine.len.toNat + chunks.flatten.length ≤ Config.maxLen →
    ∃ t, runAll (chunks.flatMap appendCommands) s = .next t ∧
      t.engine = chunks.flatten.foldl Engine.appendByte s.engine ∧ t.engine.phase = .accepting := by
  induction chunks with
  | nil => exact fun s hp _ => ⟨s, rfl, rfl, hp⟩
  | cons bytes rest ih =>
    intro s hp hl
    rw [List.flatten_cons, List.length_append] at hl
    obtain ⟨t, hrun, hengine, _, hlen, hphase⟩ :=
      runAll_appendCommands bytes s _ _ hp (by omega) (absorbed_pending s.engine)
    obtain ⟨u, hrun', hengine', hphase'⟩ := ih t hphase (by omega)
    refine ⟨u, ?_, ?_, hphase'⟩
    · rw [List.flatMap_cons, runAll_append_next hrun, hrun']
    · rw [hengine', hengine, List.flatten_cons, List.foldl_append]

/-- Commands that leave the engine accepting, then FINALIZE and DIGEST: the digest answered depends on that engine alone. -/
theorem run_then_finish {is : List Instr} {s t : State} (h : runAll is s = .next t) (hp : t.engine.phase = .accepting) :
    ∃ u, run (is ++ [Instr.finalize, Instr.digest]).length (s.offer (is ++ [Instr.finalize, Instr.digest])) = .next u ∧
      u.rsp = some ⟨.ok, digestBits t.engine.finalize.h⟩ := by
  obtain ⟨u, hfin, hrsp⟩ := runAll_finish t hp
  exact ⟨u, by rw [run_offer, runAll_append_next h, hfin], hrsp⟩

/-! ## The obligations -/

/-- Settles O25: an engine has absorbed its own pending bytes into its own `H`, and each appended byte, by induction on the
bytes, keeps that true of the longer sequence. -/
theorem appendClosedForm : Obligations.AppendClosedForm := by
  unfold Obligations.AppendClosedForm
  intro s bytes hp hl
  obtain ⟨t, hrun, _, habsorbed, hlen, hphase⟩ := runAll_appendCommands bytes s _ _ hp hl (absorbed_pending s.engine)
  exact ⟨t, (run_offer _ s).trans hrun, habsorbed.hash, hlen, habsorbed.pending, hphase⟩

/-- Settles O22: with room the byte is appended, and the effect on each field is that of `appendByte`; in FINALIZED the
command is rejected. -/
theorem appendByteEffect : Obligations.AppendByteEffect := by
  unfold Obligations.AppendByteEffect
  refine ⟨fun s d hp hl => ?_, fun s d hp => ⟨_, _, exec_of_finalized rfl hp, respond_rsp _ _ s, respond_engine _ _ s⟩⟩
  refine ⟨answered (.appendb d) s, _, exec_appendb_of_room d hp hl, answered_rsp _ s, ?_⟩
  rw [answered_engine, effect, appendByte_phase, appendByte_len]
  refine ⟨hp, fillPosition_succ hl, fun k => ?_, appendByte_h_eq s.engine d⟩
  rw [appendByte_buf, memRead8_memWrite8]

/-- Settles O26: both runs end with the fold of the same bytes, and the digest depends on the engine alone. -/
theorem chunkingDoesNotMatter : Obligations.ChunkingDoesNotMatter := by
  unfold Obligations.ChunkingDoesNotMatter
  intro s chunks hp hl
  obtain ⟨t, hrun, hengine, hphase⟩ := runAll_flatMap_appendCommands chunks s hp hl
  obtain ⟨u, hrun', hengine', _, _, hphase'⟩ :=
    runAll_appendCommands chunks.flatten s _ _ hp hl (absorbed_pending s.engine)
  have hsame : t.engine = u.engine := hengine.trans hengine'.symm
  obtain ⟨t', hfinish, hrsp⟩ := run_then_finish hrun hphase
  obtain ⟨u', hfinish', hrsp'⟩ := run_then_finish hrun' hphase'
  exact ⟨⟨t, u, (run_offer _ s).trans hrun, (run_offer _ s).trans hrun', hsame⟩,
    t', u', _, hfinish, hfinish', hrsp, by rw [hrsp', hsame]⟩

/-- Settles O23: APPENDZ has no effect on the engine where it is accepted, and is rejected in FINALIZED. -/
theorem appendZeroEffect : Obligations.AppendZeroEffect := by
  unfold Obligations.AppendZeroEffect
  exact ⟨fun s hp => ⟨_, _, exec_appendz_of_accepting hp, answered_rsp _ s, answered_engine _ s⟩,
    fun s hp => ⟨_, _, exec_of_finalized rfl hp, respond_rsp _ _ s, respond_engine _ _ s⟩⟩

end Sys2Proof.Machine

/-! # PROOFS: the family 42_finalize.md. The last blocks FINALIZE compresses, byte by byte, and the digest they leave. -/

namespace Sys2Proof.Machine

/-- In ACCEPTING, FINALIZE is never rejected or refused (42_finalize.md R95). -/
theorem exec_finalize_of_accepting {s : State} (hp : s.engine.phase = .accepting) :
    exec .finalize s = .next (answered .finalize s) :=
  exec_of_ok (violates_of_accepting hp Instr.noConfusion) (not_overLong fun _ => Instr.noConfusion)

/-! ## The length field (42_finalize.md R99) -/

/-- Bit `i` of the bit length's upper word is bit `32 + i - 3` of `LEN`. -/
theorem lengthHigh_eq_extractLsb' (len : Length) : lengthHigh len = len.extractLsb' 29 32 := by
  apply BitVec.eq_of_getLsbD_eq
  intro i hi
  rw [lengthHigh, bitLength, BitVec.getLsbD_extractLsb', BitVec.getLsbD_shiftLeft, BitVec.getLsbD_extractLsb',
    show 32 + i - 3 = 29 + i by omega]
  simp [show 32 + i < 64 by omega, show ¬ 32 + i < 3 by omega]

/-- The three low bits are the zeros shifted in, and bit `i` above them is bit `i - 3` of `LEN`. -/
theorem lengthLow_eq_append (len : Length) : lengthLow len = len.extractLsb' 0 29 ++ 0#3 := by
  apply BitVec.eq_of_getLsbD_eq
  intro i hi
  rw [lengthLow, bitLength, BitVec.getLsbD_extractLsb', BitVec.getLsbD_shiftLeft, BitVec.getLsbD_append]
  by_cases h3 : i < 3
  · simp [h3]
  · simp [h3, hi, show i < 64 by omega, show i - 3 < 29 by omega]

@[simp] theorem memRead32_writeLength_high (b : Block) (len : Length) :
    memRead32 (writeLength b len) 14 = lengthHigh len := by
  simp [writeLength, memRead32_memWrite32]

@[simp] theorem memRead32_writeLength_low (b : Block) (len : Length) :
    memRead32 (writeLength b len) 15 = lengthLow len := by
  simp [writeLength, memRead32_memWrite32]

/-! ## The blocks FINALIZE compresses (42_finalize.md R97, R100) -/

/-- The step for a second block does nothing where the length field fits (42_finalize.md R97). -/
theorem extraBlock_of_lt (e : Engine) {t : BufAddr} (h : t.val < 56) : e.extraBlock t = e :=
  if_neg (Nat.not_le.mpr h)

/-- The step for a second block where the length field does not fit (42_finalize.md R97). -/
theorem extraBlock_of_ge (e : Engine) {t : BufAddr} (h : 56 ≤ t.val) :
    e.extraBlock t = { e.compressBlock with buf := zeroWords e.buf 0 ((wordIndex t).val + 1) } :=
  if_pos h

/-- The last block stays in the buffer: the length field written over what the steps before it left. -/
theorem finalize_buf (e : Engine) :
    e.finalize.buf = writeLength (e.mark.extraBlock (fillPosition e.len)).buf e.len := by
  simp [Engine.finalize]

/-- The last compression is of the block that stays in the buffer (42_finalize.md R100). -/
theorem finalize_h_eq_compress (e : Engine) :
    e.finalize.h = compress (e.mark.extraBlock (fillPosition e.len)).h e.finalize.buf := rfl

/-- The words up to the marker's were cleared and those after it held zeros already, so all are zero (42_finalize.md R97). -/
theorem memRead8_zeroWords_placeMarker (b : Block) (t k : BufAddr) :
    memRead8 (zeroWords (placeMarker b t) 0 ((wordIndex t).val + 1)) k = 0#8 := by
  rw [memRead8_zeroWords, memRead8_placeMarker]
  by_cases hw : k.val / 4 < t.val / 4 + 1
  · rw [if_pos ⟨Nat.zero_le _, hw⟩]
  · have hlt : ¬ k < t := by rw [Fin.lt_def]; omega
    have hne : k ≠ t := by rw [Ne, Fin.ext_iff]; omega
    rw [if_neg (fun hc => hw hc.2), if_neg hlt, if_neg hne]

/-- With room for the length field, the one block: pending bytes, marker and zeros before the length. -/
theorem finalize_of_fill_lt {e : Engine} (h : (fillPosition e.len).val < 56) :
    (∀ k : BufAddr, k.val < 56 → memRead8 e.finalize.buf k =
      if k < fillPosition e.len then memRead8 e.buf k else if k = fillPosition e.len then 0x80#8 else 0x00#8) ∧
    e.finalize.h = compress e.h e.finalize.buf := by
  constructor
  · intro k hk
    rw [finalize_buf, extraBlock_of_lt _ h, memRead8_writeLength, if_pos hk, mark_buf, memRead8_placeMarker]
  · rw [finalize_h_eq_compress, extraBlock_of_lt _ h, mark_h]

/-- Without room, the marked buffer is the first block, and before the length the second one holds zeros. -/
theorem finalize_of_fill_ge {e : Engine} (h : 56 ≤ (fillPosition e.len).val) :
    (∀ k : BufAddr, k.val < 56 → memRead8 e.finalize.buf k = 0x00#8) ∧
    e.finalize.h = compress (compress e.h (placeMarker e.buf (fillPosition e.len))) e.finalize.buf := by
  constructor
  · intro k hk
    rw [finalize_buf, extraBlock_of_ge _ h, memRead8_writeLength, if_pos hk, mark_buf,
      memRead8_zeroWords_placeMarker]
  · rw [finalize_h_eq_compress, extraBlock_of_ge _ h, compressBlock_h, mark_h, mark_buf]

/-! ## The padded message (42_finalize.md R98) -/

/-- The padding fills the message up to the next whole block that has room for the marker and the length field. -/
theorem padded_length (message : List Byte) :
    (message ++ padding message.length).length = 64 * ((message.length + 8) / 64 + 1) := by
  rw [List.length_append, padding_length]
  omega

@[simp] theorem fullBlocks_length (bytes : List Byte) : (fullBlocks bytes).length = bytes.length / 64 := by
  simp [fullBlocks]

/-! ## The obligations -/

/-- Settles O43: RESET leaves an engine that holds the empty message, and appending to it, FINALIZE and DIGEST answer the
digest of what was appended. -/
theorem machineComputesSha256 : Obligations.MachineComputesSha256 := by
  unfold Obligations.MachineComputesSha256
  intro s message hl
  have hempty : (answered .reset s).engine.Holds [] := holds_empty rfl rfl rfl
  obtain ⟨t, hrun, hrsp⟩ := run_append_finish message hempty (by simpa using hl)
  rw [run_offer] at hrun
  exact ⟨t, by rw [run_offer, runAll_cons_next (exec_reset s), hrun], hrsp⟩

/-- Settles O28: the length field is written in both cases, the rest of the blocks is that of the case of the fill
position, and in FINALIZED the command is rejected. -/
theorem finalizeEffect : Obligations.FinalizeEffect := by
  unfold Obligations.FinalizeEffect
  refine ⟨fun s hp => ?_, fun s hp => ⟨_, _, exec_of_finalized rfl hp, respond_rsp _ _ s, respond_engine _ _ s⟩⟩
  refine ⟨answered .finalize s, _, exec_finalize_of_accepting hp, answered_rsp _ s, ?_⟩
  rw [answered_engine, effect]
  refine ⟨finalize_phase _, finalize_len _, ?_, ?_, finalize_of_fill_lt, fun h => ?_⟩
  · rw [finalize_buf, memRead32_writeLength_high, lengthHigh_eq_extractLsb']
  · rw [finalize_buf, memRead32_writeLength_low, lengthLow_eq_append]
  · exact ⟨placeMarker s.engine.buf (fillPosition s.engine.len), memRead8_placeMarker _ _, finalize_of_fill_ge h⟩

/-- Settles O29: an engine that holds a message is accepting, FINALIZE's effect finalizes what it holds, and the padded
message is a whole number of blocks. -/
theorem finalizeHashesHeldMessage : Obligations.FinalizeHashesHeldMessage := by
  unfold Obligations.FinalizeHashesHeldMessage
  intro s message h
  refine ⟨⟨answered .finalize s, exec_finalize_of_accepting h.phase, ?_⟩, padded_length message, ?_⟩
  · rw [answered_engine, effect]
    exact finalized_of_holds h
  · rw [fullBlocks_length, padded_length, Nat.mul_div_cancel_left _ (by decide)]

end Sys2Proof.Machine

/-! # PROOFS: the family 43_digest.md. The digest bus by words and by bytes, and the DIGEST command in either phase. -/

namespace Sys2Proof.Machine

/-! ## The digest bus (43_digest.md R110, R111) -/

/-- A slice taken within another slice. -/
theorem extractLsb'_extractLsb' {n m k : Nat} (x : BitVec n) (s o : Nat) (h : o + k ≤ m) :
    (x.extractLsb' s m).extractLsb' o k = x.extractLsb' (s + o) k := by
  ext i hi
  simp [show o + i < m by omega, Nat.add_assoc]

/-- Hash word `i` is found on the bus by cutting off the words after it: it is then the lowest word left, or the only one
for `i = 0`. -/
theorem digestBits_word (h : HashWords) (i : Fin 8) : (digestBits h).extractLsb' (224 - 32 * i.val) 32 = h[i] := by
  fin_cases i <;>
    simp only [digestBits, BitVec.extractLsb'_append_eq_of_le, BitVec.extractLsb'_append_eq_right,
      BitVec.extractLsb'_eq_self, Nat.reduceLeDiff, Nat.reduceMul, Nat.reduceSub, Fin.getElem_fin]

/-- Settles O31: byte `q` of the bus lies within hash word `q div 4`, at the lane of its place in the word. -/
theorem digestByteOrder : Obligations.DigestByteOrder := by
  unfold Obligations.DigestByteOrder
  intro h i j q hq
  have hpos : 248 - 8 * q.val = (224 - 32 * i.val) + (24 - 8 * j.val) := by omega
  rw [digestByte, hpos, ← digestBits_word h i, extractLsb'_extractLsb' _ _ _ (by omega)]

/-! ## The command (43_digest.md R110) -/

/-- In FINALIZED, DIGEST is never rejected. -/
theorem exec_digest_of_finalized {s : State} (hp : s.engine.phase = .finalized) :
    exec .digest s = .next (answered .digest s) :=
  exec_of_ok (by simp [violates, requiredPhase, hp]) (not_overLong fun _ => Instr.noConfusion)

/-- In ACCEPTING, DIGEST violates its precondition (60_exceptions.md R140). -/
theorem exec_digest_of_accepting {s : State} (hp : s.engine.phase = .accepting) :
    exec .digest s = .next (respond .digest .invalidState s) :=
  exec_of_violates ((violates_iff _ _).mpr (.inr ⟨hp, rfl⟩))

/-- Settles O30: in FINALIZED the accepted command's answer carries the digest bus, in ACCEPTING the command is rejected,
and neither has an effect on the engine. -/
theorem digestEffect : Obligations.DigestEffect := by
  unfold Obligations.DigestEffect
  exact ⟨fun s hp => ⟨_, exec_digest_of_finalized hp, answered_engine _ s, answered_rsp _ s⟩,
    fun s hp => ⟨_, _, exec_digest_of_accepting hp, respond_engine _ _ s, respond_rsp _ _ s⟩⟩

end Sys2Proof.Machine

/-! # PROOFS: the family 44_compression.md. The functions of a round bit by bit, the schedule and the working variables as
the only ones that follow the pseudocode, and COMPRESS over the rolling window and over the rotated registers. -/

namespace Sys2Proof.Machine

/-! ## The rolling window (44_compression.md R125) -/

/-- The 64 rounds over the window, which starts as the block, are the rounds. -/
theorem compressWindow_eq (h : HashWords) (m : Block) : compressWindow h m = compress h m := by
  have hrounds : windowRounds 64 0 m (WorkVars.ofHash h) = workBefore h m 64 := windowRounds_eq h m 64 0 (by decide)
  rw [compressWindow, hrounds, ← compress_eq]

/-- Settles O19: the window of round `t` holds the last schedule words, `W[t]` among them, so each round over the window
is the round. -/
theorem rollingWindowIdentical : Obligations.RollingWindowIdentical := by
  unfold Obligations.RollingWindowIdentical
  exact fun h m => ⟨fun t ht => windowAt_holds m t ht t (.inr (Nat.le_refl t)) (by omega), compressWindow_eq h m⟩

/-! ## The rotated registers (44_compression.md R126) -/

/-- In round 0 each register plays the role of its own number. -/
theorem rolesAt_zero (v : HashWords) : rolesAt 0 v = WorkVars.ofHash v := rfl

/-- The roles come round every eight rounds. -/
theorem rolesAt_add_mul_eight (t n : Nat) (v : HashWords) : rolesAt (t + 8 * n) v = rolesAt t v := by
  have hrole : ∀ role, roleRegister role (t + 8 * n) = roleRegister role t := fun role =>
    Fin.ext (by simp only [roleRegister]; omega)
  simp only [rolesAt, hrole]

/-- The registers in their roles are the working variables after any number of rounds from the hash words. -/
theorem rolesAt_rotatedRounds_start (h : HashWords) (m : Block) (t : Nat) :
    rolesAt t (rotatedRounds m t 0 h) = workBefore h m t := by
  simpa using rolesAt_rotatedRounds h m t 0 h (rolesAt_zero h)

/-- The registers are added to the hash words by number: the feed-forward with the roles of round 0. -/
theorem compressRotated_eq_feedForward (h : HashWords) (m : Block) :
    compressRotated h m = feedForward h (WorkVars.ofHash (rotatedRounds m 64 0 h)) := rfl

/-- After 64 rounds, a multiple of eight, each register plays the role of its own number again. -/
theorem compressRotated_eq (h : HashWords) (m : Block) : compressRotated h m = compress h m := by
  rw [compressRotated_eq_feedForward, ← rolesAt_zero, ← rolesAt_add_mul_eight 0 8, rolesAt_rotatedRounds_start,
    ← compress_eq]

/-- Settles O20: a rotated round is a round up to the roles, and after the last round the roles are those of the first. -/
theorem rotatedFormIdentical : Obligations.RotatedFormIdentical := by
  unfold Obligations.RotatedFormIdentical
  exact fun h m => ⟨fun t _ => rolesAt_rotatedRounds_start h m t, compressRotated_eq h m⟩

/-! ## The sigma functions (44_compression.md R116 to R119) -/

/-- A shifted bit comes from the place `n` higher, and is 0 where there is none (00_scope.md R10). -/
theorem getLsbD_shr (x : Word) (n i : Nat) : (shr x n).getLsbD i = x.getLsbD (i + n) := by
  rw [shr, BitVec.getLsbD_ushiftRight, Nat.add_comm]

/-- The terms of σ0 and σ1: two rotations and a shift. -/
theorem getLsbD_rotr_rotr_shr (x : Word) {p q r i : Nat} (hp : 0 < p ∧ p < 32) (hq : 0 < q ∧ q < 32) (hi : i < 32) :
    (rotr x p ^^^ rotr x q ^^^ shr x r).getLsbD i =
      ((x.getLsbD ((i + p) % 32) ^^ x.getLsbD ((i + q) % 32)) ^^ x.getLsbD (i + r)) := by
  rw [BitVec.getLsbD_xor, BitVec.getLsbD_xor, getLsbD_rotr x hp.1 hp.2 hi, getLsbD_rotr x hq.1 hq.2 hi, getLsbD_shr]

/-- The terms of Σ0 and Σ1: three rotations. -/
theorem getLsbD_rotr_rotr_rotr (x : Word) {p q r i : Nat} (hp : 0 < p ∧ p < 32) (hq : 0 < q ∧ q < 32)
    (hr : 0 < r ∧ r < 32) (hi : i < 32) :
    (rotr x p ^^^ rotr x q ^^^ rotr x r).getLsbD i =
      ((x.getLsbD ((i + p) % 32) ^^ x.getLsbD ((i + q) % 32)) ^^ x.getLsbD ((i + r) % 32)) := by
  rw [BitVec.getLsbD_xor, BitVec.getLsbD_xor, getLsbD_rotr x hp.1 hp.2 hi, getLsbD_rotr x hq.1 hq.2 hi,
    getLsbD_rotr x hr.1 hr.2 hi]

/-- Settles O15: the formulas are the definitions, their bits are those of rotations and shifts, and the examples are
evaluated. -/
theorem sigmaFunctions : Obligations.SigmaFunctions := by
  unfold Obligations.SigmaFunctions
  refine ⟨fun _ => rfl, fun _ => rfl, fun _ => rfl, fun _ => rfl, fun x i hi => ⟨?_, ?_, ?_, ?_⟩, ?_⟩
  · exact getLsbD_rotr_rotr_shr x (by decide) (by decide) hi
  · exact getLsbD_rotr_rotr_shr x (by decide) (by decide) hi
  · exact getLsbD_rotr_rotr_rotr x (by decide) (by decide) (by decide) hi
  · exact getLsbD_rotr_rotr_rotr x (by decide) (by decide) (by decide) hi
  · decide

/-! ## Choice and majority (44_compression.md R120, R121) -/

theorem getLsbD_Ch (x y z : Word) {i : Nat} (hi : i < 32) :
    (Ch x y z).getLsbD i = if x.getLsbD i then y.getLsbD i else z.getLsbD i := by
  rw [Ch, BitVec.getLsbD_xor, BitVec.getLsbD_and, BitVec.getLsbD_and, BitVec.getLsbD_not]
  cases x.getLsbD i <;> simp [hi]

theorem getLsbD_Maj (x y z : Word) (i : Nat) : (Maj x y z).getLsbD i =
    ((x.getLsbD i && y.getLsbD i) ^^ (x.getLsbD i && z.getLsbD i) ^^ (y.getLsbD i && z.getLsbD i)) := by
  simp only [Maj, BitVec.getLsbD_xor, BitVec.getLsbD_and]

/-- The sum modulo 2 of the three pairs' products is 1 exactly when at least two of the three bits are. -/
theorem xor_and_pairs_iff_two_le : ∀ p q r : Bool,
    (((p && q) ^^ (p && r) ^^ (q && r)) = true) ↔ 2 ≤ p.toNat + q.toNat + r.toNat := by decide

theorem Ch_allOnes (y z : Word) : Ch (BitVec.allOnes 32) y z = y := by
  rw [Ch, BitVec.allOnes_and, BitVec.not_allOnes, BitVec.zero_and, BitVec.xor_zero]

theorem Ch_zero (y z : Word) : Ch 0#32 y z = z := by
  rw [Ch, BitVec.zero_and, BitVec.not_zero, BitVec.allOnes_and, BitVec.zero_xor]

theorem Maj_zero (y z : Word) : Maj 0#32 y z = y &&& z := by simp [Maj]

/-- Where `x` is 1, one more 1 makes the majority. -/
theorem Maj_allOnes (y z : Word) : Maj (BitVec.allOnes 32) y z = y ||| z := by
  ext i hi
  simp only [Maj, BitVec.allOnes_and, BitVec.getElem_xor, BitVec.getElem_and, BitVec.getElem_or]
  cases y[i] <;> cases z[i] <;> rfl

/-- Settles O16: the formulas are the definitions, each bit of them is a function of the three bits at its place, and the
examples are evaluated. -/
theorem choiceAndMajority : Obligations.ChoiceAndMajority := by
  unfold Obligations.ChoiceAndMajority
  refine ⟨fun _ _ _ => ⟨rfl, rfl⟩, fun x y z i hi => ⟨getLsbD_Ch x y z hi, ?_⟩,
    fun y z => ⟨Ch_allOnes y z, Ch_zero y z, Maj_zero y z, Maj_allOnes y z⟩, by decide⟩
  rw [getLsbD_Maj]
  exact xor_and_pairs_iff_two_le _ _ _

/-! ## The schedule (44_compression.md R124) -/

/-- Settles O17: the words of the block, the recurrence, and the rule's example by evaluation. -/
theorem scheduleRecurrence : Obligations.ScheduleRecurrence := by
  unfold Obligations.ScheduleRecurrence
  refine ⟨fun m => ⟨schedule_length m, W_of_block m, fun t h16 h64 => W_recurrence m h16 h64⟩, ?_⟩
  rintro _ rfl
  decide

/-! ## The pseudocode of COMPRESS (44_compression.md R115) -/

/-- The schedule is the only one with the block's words and the recurrence. -/
theorem eq_W_of_recurrence {m : Block} {w : Nat → Word} (hblock : ∀ i : Fin 16, w i.val = m[i])
    (hrec : ∀ t, 16 ≤ t → t < 64 → w t = ssig1 (w (t - 2)) + w (t - 7) + ssig0 (w (t - 15)) + w (t - 16))
    (t : Nat) (ht : t < 64) : w t = W m t := by
  induction t using Nat.strongRecOn with
  | ind t ih =>
    rcases Nat.lt_or_ge t 16 with h16 | h16
    · exact (hblock ⟨t, h16⟩).trans (W_of_block m ⟨t, h16⟩).symm
    · rw [hrec t h16 ht, W_recurrence m h16 ht, ih (t - 2) (by omega) (by omega), ih (t - 7) (by omega) (by omega),
        ih (t - 15) (by omega) (by omega), ih (t - 16) (by omega) (by omega)]

/-- The eight assignments of a round leave what `roundStep` does (44_compression.md R123). -/
theorem eq_roundStep_of_assignments {v v' : WorkVars} {k w : Word}
    (hassign : v'.hh = v.g ∧ v'.g = v.f ∧ v'.f = v.e ∧ v'.e = v.d + (v.hh + bsig1 v.e + Ch v.e v.f v.g + k + w) ∧
      v'.d = v.c ∧ v'.c = v.b ∧ v'.b = v.a ∧
      v'.a = (v.hh + bsig1 v.e + Ch v.e v.f v.g + k + w) + (bsig0 v.a + Maj v.a v.b v.c)) :
    v' = roundStep v k w := by
  obtain ⟨hhh, hg, hf, he, hd, hc, hb, ha⟩ := hassign
  cases v'
  simp only [roundStep, temp1, temp2, WorkVars.mk.injEq]
  exact ⟨ha, hb, hc, hd, he, hf, hg, hhh⟩

/-- The working variables are the only ones with their start and their rounds. -/
theorem eq_workBefore_of_rounds {h : HashWords} {m : Block} {v : Nat → WorkVars} (hstart : v 0 = WorkVars.ofHash h)
    (hround : ∀ t, t < 64 → v (t + 1) = roundStep (v t) (K t) (W m t)) (t : Nat) (ht : t ≤ 64) :
    v t = workBefore h m t := by
  induction t with
  | zero => exact hstart
  | succ t ih => rw [hround t ht, ih (by omega), workBefore]

/-- Settles O18: what follows the pseudocode's assignments is the model's schedule and the model's working variables, and
COMPRESS is the feed-forward after round 63. -/
theorem compressFollowsPseudocode : Obligations.CompressFollowsPseudocode := by
  unfold Obligations.CompressFollowsPseudocode
  intro h m w v hblock hrec hstart hassign
  have hround : ∀ t, t < 64 → v (t + 1) = roundStep (v t) (K t) (W m t) := fun t ht => by
    rw [← eq_W_of_recurrence hblock hrec t ht]
    exact eq_roundStep_of_assignments (hassign t ht)
  rw [compress_eq, ← eq_workBefore_of_rounds hstart hround 64 (Nat.le_refl _), feedForward]

end Sys2Proof.Machine

/-! # PROOFS: the family 60_exceptions.md. When a command is rejected or refused, and what a finalized engine keeps. -/

namespace Sys2Proof.Machine

/-! ## Refusal (60_exceptions.md R144, R150) -/

/-- Settles O24: at `LEN = MAXLEN` the byte is over-long. -/
theorem overLengthAppendRefused : Obligations.OverLengthAppendRefused := by
  unfold Obligations.OverLengthAppendRefused
  exact fun s d hp hl => exec_of_overLong ⟨⟨d, rfl⟩, hp, hl.ge⟩

/-- A command that is not an over-long append is rejected or answered, so it has a next state. -/
theorem exec_next_of_not_overLong {i : Instr} {s : State} (ho : ¬ overLong i s.engine) : ∃ t, exec i s = .next t := by
  rcases exec_cases i s with ⟨_, he⟩ | ⟨_, _, he⟩ | ⟨_, hover, _⟩
  · exact ⟨_, he⟩
  · exact ⟨_, he⟩
  · exact absurd hover ho

/-- Settles O35: the over-long append is the one command that is refused. -/
theorem everyCommandHasOneOutcome : Obligations.EveryCommandHasOneOutcome := by
  unfold Obligations.EveryCommandHasOneOutcome
  exact fun i s => ⟨exec_of_overLong, exec_next_of_not_overLong⟩

/-! ## The one error (60_exceptions.md R140, R141) -/

/-- A command that does not violate its precondition is answered OK wherever it has a next state. -/
theorem exec_ok_of_not_violates {i : Instr} {s t : State} (hv : ¬ violates i s.engine.phase = true)
    (h : exec i s = .next t) : ∃ x, t.rsp = some ⟨.ok, x⟩ := by
  rcases exec_next h with ⟨hviolates, _⟩ | ⟨_, _, rfl⟩
  · exact absurd hviolates hv
  · exact ⟨_, answered_rsp i s⟩

/-- Settles O33: the listed cases are those that violate the precondition, and only these are rejected. -/
theorem invalidStateExactlyWhen : Obligations.InvalidStateExactlyWhen := by
  unfold Obligations.InvalidStateExactlyWhen
  intro i s
  rw [← violates_iff]
  exact ⟨fun hv => ⟨_, _, exec_of_violates hv, respond_rsp _ _ s, respond_engine _ _ s⟩,
    fun hv _ => exec_ok_of_not_violates hv⟩

/-! ## A finalized engine (43_digest.md R112; 60_exceptions.md R145) -/

/-- In FINALIZED no command but RESET writes the engine: DIGEST is accepted and only reads, the others are rejected. -/
theorem exec_keeps_finalized {i : Instr} {s : State} (hp : s.engine.phase = .finalized) (hi : i ≠ .reset) :
    ∃ t, exec i s = .next t ∧ t.engine = s.engine := by
  cases i with
  | reset => exact absurd rfl hi
  | digest => exact ⟨_, exec_digest_of_finalized hp, answered_engine _ s⟩
  | appendz | appendb d | finalize => exact ⟨_, exec_of_finalized rfl hp, respond_engine _ _ s⟩

/-- Any run of commands without RESET keeps a finalized engine. -/
theorem runAll_keeps_finalized (is : List Instr) : ∀ s : State, s.engine.phase = .finalized → (∀ i ∈ is, i ≠ .reset) →
    ∃ t, runAll is s = .next t ∧ t.engine = s.engine := by
  induction is with
  | nil => exact fun s _ _ => ⟨s, rfl, rfl⟩
  | cons i is ih =>
    intro s hp h
    obtain ⟨hi, his⟩ := List.forall_mem_cons.mp h
    obtain ⟨t, hexec, hengine⟩ := exec_keeps_finalized hp hi
    obtain ⟨u, hrun, hengine'⟩ := ih t (by rw [hengine, hp]) his
    exact ⟨u, (runAll_cons_next hexec).trans hrun, hengine'.trans hengine⟩

/-- Settles O32: the commands keep the finalized engine, and the DIGEST after them reads its `H`. -/
theorem digestRepeatable : Obligations.DigestRepeatable := by
  unfold Obligations.DigestRepeatable
  intro s is hp his
  obtain ⟨t, hrun, hengine⟩ := runAll_keeps_finalized is s hp his
  have hdigest : exec .digest t = .next (answered .digest t) := exec_digest_of_finalized (by rw [hengine, hp])
  refine ⟨answered .digest t, ?_, (answered_engine .digest t).trans hengine, ?_⟩
  · rw [run_offer, runAll_append_next hrun, runAll_cons_next hdigest, runAll]
  · rw [answered_rsp, if_pos rfl, hengine]

end Sys2Proof.Machine

/-! # PROOFS: the family 70_reset_and_hazards.md. The protocol of an error-free use, command by command and over a run, and
the hardware reset. -/

namespace Sys2Proof.Machine

/-! ## The protocol of an error-free use (70_reset_and_hazards.md R169) -/

/-- No use goes on by the protocol with a command that violates its precondition. -/
theorem followsProtocol_cons_of_violates {i : Instr} {p : Phase} (is : List Instr) (hv : violates i p = true) :
    followsProtocol p (i :: is) = false := by
  rcases (violates_iff i p).mp hv with ⟨rfl, rfl | ⟨d, rfl⟩ | rfl⟩ | ⟨rfl, rfl⟩ <;> rfl

/-- A use that goes on with an accepted command follows the protocol as the rest of it does from the phase the command
leaves. -/
theorem followsProtocol_cons_of_not_violates {i : Instr} {e : Engine} (is : List Instr)
    (hv : violates i e.phase = false) :
    followsProtocol e.phase (i :: is) = followsProtocol (effect i e).phase is := by
  cases i with
  | reset => cases e.phase <;> rfl
  | appendb d => rw [effect, appendByte_phase, phase_of_not_violates hv rfl, followsProtocol]
  | appendz | finalize | digest => rw [effect, phase_of_not_violates hv rfl]; rfl

/-- The one event a command adds to the record is OK, and the rest follows the protocol from the phase it leaves,
exactly when the command with that rest does. -/
theorem exec_isOk_and_followsProtocol {i : Instr} {s t : State} (h : exec i s = .next t) :
    ∃ e, t.history = s.history ++ [e] ∧ ∀ is,
      (e.isOk = true ∧ followsProtocol t.engine.phase is = true ↔ followsProtocol s.engine.phase (i :: is) = true) := by
  rcases exec_next h with ⟨hv, rfl⟩ | ⟨hv, _, rfl⟩
  · refine ⟨_, respond_history _ _ s, fun is => ?_⟩
    simp [PortEvent.isOk, followsProtocol_cons_of_violates is hv]
  · refine ⟨_, answered_history i s, fun is => ?_⟩
    simp [PortEvent.isOk, followsProtocol_cons_of_not_violates is hv]

/-- A run that ends in a next state took its first command to one, and the rest of it from there. -/
theorem exists_exec_of_runAll_cons {i : Instr} {is : List Instr} {s t : State} (h : runAll (i :: is) s = .next t) :
    ∃ u, exec i s = .next u ∧ runAll is u = .next t := by
  rw [runAll] at h
  cases he : exec i s with
  | next u => rw [he] at h; exact ⟨u, rfl, h⟩
  | fault r | refused r => rw [he] at h; cases h

/-- Settles O38, by induction on the commands: each adds one event, which is OK exactly when the command follows the
protocol from the phase before it. -/
theorem errorFreeExactlyByProtocol : Obligations.ErrorFreeExactlyByProtocol := by
  unfold Obligations.ErrorFreeExactlyByProtocol
  intro s t is h
  rw [run_offer] at h
  induction is generalizing s with
  | nil =>
    cases h
    exact ⟨[], by simp, by simp [followsProtocol]⟩
  | cons i is ih =>
    obtain ⟨u, hexec, hrun⟩ := exists_exec_of_runAll_cons h
    obtain ⟨e, hhead, hiff⟩ := exec_isOk_and_followsProtocol hexec
    obtain ⟨es, htail, ihiff⟩ := ih u hrun
    refine ⟨e :: es, by simp [htail, hhead], ?_⟩
    rw [List.forall_mem_cons, ihiff, hiff]

/-! ## Hardware reset (70_reset_and_hazards.md R165, R166) -/

/-- Settles O2: either input is served by the hardware reset, which keeps only the buffer and presents no response. -/
theorem hardwareResetFromAnyState : Obligations.HardwareResetFromAnyState := by
  unfold Obligations.HardwareResetFromAnyState
  intro s rest h
  have hstep : step s = .next (hardwareReset (takeInput s)) :=
    step_of_reset (h.imp (fun hrst => ⟨rest, hrst⟩) fun ⟨w, hw⟩ => ⟨w, rest, hw⟩)
  exact ⟨_, hstep, rfl, rfl, rfl, rfl, rfl, rfl, rfl, fun _ => rfl⟩

end Sys2Proof.Machine

/-! # PROOFS: the other statements. COMPRESS on the blocks 95_test_vectors.md prints, and the digests of the messages
those blocks pad. -/

namespace Sys2Proof.Machine

/-! ## The blocks and COMPRESS of them (95_test_vectors.md V11, V12 and the trace of P3) -/

/-- The one block of the padded empty message. -/
def emptyMessageBlock : Block := #v[0x80000000#32, 0, 0, 0, 0, 0, 0, 0, 0, 0, 0, 0, 0, 0, 0, 0]

/-- The one block of the padded message "abc" (V11). -/
def abcBlock : Block := #v[0x61626380#32, 0, 0, 0, 0, 0, 0, 0, 0, 0, 0, 0, 0, 0, 0, 0x00000018#32]

/-- The first block of the padded 56-byte message: the message and the marker (P3). -/
def longMessageBlock : Block :=
  #v[0x61626364#32, 0x62636465#32, 0x63646566#32, 0x64656667#32, 0x65666768#32, 0x66676869#32, 0x6768696a#32,
     0x68696a6b#32, 0x696a6b6c#32, 0x6a6b6c6d#32, 0x6b6c6d6e#32, 0x6c6d6e6f#32, 0x6d6e6f70#32, 0x6e6f7071#32,
     0x80000000#32, 0]

/-- The second block of the padded 56-byte message: its bit length alone (P3). -/
def longMessageLengthBlock : Block := #v[0, 0, 0, 0, 0, 0, 0, 0, 0, 0, 0, 0, 0, 0, 0, 0x000001c0#32]

/-- The hash words between those two blocks (P3). -/
def longMessageMiddleHash : HashWords :=
  #v[0x85e655d6#32, 0x417a1795#32, 0x3363376a#32, 0x624cde5c#32,
     0x76e09589#32, 0xcac5f811#32, 0xcc4b32c1#32, 0xf20e533a#32]

set_option maxRecDepth 100000 in
theorem compress_emptyMessageBlock : compress iv emptyMessageBlock =
    #v[0xe3b0c442#32, 0x98fc1c14#32, 0x9afbf4c8#32, 0x996fb924#32,
       0x27ae41e4#32, 0x649b934c#32, 0xa495991b#32, 0x7852b855#32] := by decide

set_option maxRecDepth 100000 in
theorem compress_abcBlock : compress iv abcBlock =
    #v[0xba7816bf#32, 0x8f01cfea#32, 0x414140de#32, 0x5dae2223#32,
       0xb00361a3#32, 0x96177a9c#32, 0xb410ff61#32, 0xf20015ad#32] := by decide

set_option maxRecDepth 100000 in
theorem compress_allOnesBlock : compress iv (Vector.replicate 16 0xffffffff#32) =
    #v[0xef0c748d#32, 0xf4da50a8#32, 0xd6c43c01#32, 0x3edc3ce7#32,
       0x6c9d9fa9#32, 0xa1458ade#32, 0x56eb86c0#32, 0xa64492d2#32] := by decide

set_option maxRecDepth 100000 in
theorem compress_zeros : compress (Vector.replicate 8 0#32) (Vector.replicate 16 0#32) =
    #v[0x7ca51614#32, 0x425c3ba8#32, 0xce54dd2f#32, 0xc2020ae7#32,
       0xb6e574d1#32, 0x98136d0f#32, 0xae7e26cc#32, 0xbf0be7a6#32] := by decide

set_option maxRecDepth 100000 in
theorem compress_longMessageBlock : compress iv longMessageBlock = longMessageMiddleHash := by decide

set_option maxRecDepth 100000 in
theorem compress_longMessageLengthBlock : compress longMessageMiddleHash longMessageLengthBlock =
    #v[0x248d6a61#32, 0xd20638b8#32, 0xe5c02693#32, 0x0c3e6039#32,
       0xa33ce459#32, 0x64ff2167#32, 0xf6ecedd4#32, 0x19db06c1#32] := by decide

/-- Settles O21, vector by vector. -/
theorem compressKnownBlocks : Obligations.CompressKnownBlocks :=
  ⟨compress_abcBlock, compress_allOnesBlock, compress_zeros⟩

/-! ## The digests of the messages the blocks pad (42_finalize.md R98, R102) -/

/-- The 56 bytes of 95_test_vectors.md V15: fourteen runs of four consecutive letters, from "abcd" to "nopq". -/
def longMessage : List Byte :=
  (List.range 14).flatMap fun i => (List.range 4).map fun j => BitVec.ofNat 8 (0x61 + i + j)

/-- The blocks of a message with its padding (42_finalize.md R98). -/
def paddedBlocks (message : List Byte) : List Block := fullBlocks (message ++ padding message.length)

/-- The digest is that of the hash words after the blocks of the padded message, in order. -/
theorem sha256_eq_foldl_paddedBlocks (message : List Byte) :
    sha256 message = digestBits ((paddedBlocks message).foldl compress iv) := rfl

theorem paddedBlocks_nil : paddedBlocks [] = [emptyMessageBlock] := by decide

theorem paddedBlocks_abc : paddedBlocks [0x61#8, 0x62#8, 0x63#8] = [abcBlock] := by decide

set_option maxRecDepth 100000 in
theorem paddedBlocks_longMessage : paddedBlocks longMessage = [longMessageBlock, longMessageLengthBlock] := by decide

theorem sha256_nil : sha256 [] = 0xe3b0c44298fc1c149afbf4c8996fb92427ae41e4649b934ca495991b7852b855#256 := by
  rw [sha256_eq_foldl_paddedBlocks, paddedBlocks_nil, List.foldl_cons, List.foldl_nil, compress_emptyMessageBlock]
  decide

theorem sha256_abc : sha256 [0x61#8, 0x62#8, 0x63#8] =
    0xba7816bf8f01cfea414140de5dae2223b00361a396177a9cb410ff61f20015ad#256 := by
  rw [sha256_eq_foldl_paddedBlocks, paddedBlocks_abc, List.foldl_cons, List.foldl_nil, compress_abcBlock]
  decide

theorem sha256_longMessage : sha256 longMessage =
    0x248d6a61d20638b8e5c026930c3e6039a33ce45964ff2167f6ecedd419db06c1#256 := by
  rw [sha256_eq_foldl_paddedBlocks, paddedBlocks_longMessage, List.foldl_cons, List.foldl_cons, List.foldl_nil,
    compress_longMessageBlock, compress_longMessageLengthBlock]
  decide

/-- Settles O45: the padded messages are known blocks, and COMPRESS of these is known. -/
theorem knownDigests : Obligations.KnownDigests := ⟨sha256_nil, sha256_abc, sha256_longMessage⟩

end Sys2Proof.Machine
